-- ==== Sys2Proof/Word.lean ====
section
/-! DEFINITION. The words of the PPDE core: field widths, typed operands, and the forms in which an operation is
presented (spec/30_encoding.md R100, R104, R105). -/

namespace Sys2Proof

/-- An 8-bit value: a host opcode, a command, a character code (R11, R105). -/
abbrev Byte := BitVec 8

/-- A 4-bit value: a cell of the display memory, a payload, a register index field (R72, R105). -/
abbrev Nibble := BitVec 4

/-- The 6-bit nibble address of a write frame (R102). -/
abbrev Addr6 := BitVec 6

/-- A 16-bit display register, glyph pattern or decimal-point mask (R43, R130, R137). -/
abbrev Half := BitVec 16

/-- One typed operand of a host operation: "Operands are typed values, not packed bits" (R104, R105). -/
inductive Operand where
  | int (v : Int)
  | nibble (v : Nibble)
  | byte (v : Byte)
  | half (v : Half)
  | text (s : List Byte)
deriving DecidableEq, Repr

/-- A host operation as the host presents it: "an 8-bit opcode followed by the operands its row lists" (R104). -/
structure HostWord where
  opcode   : Byte
  operands : List Operand
deriving DecidableEq, Repr

/-- What only the block itself can give its frame encoder: the MICRO format (R111) or the bits of one wire frame,
first sent bit first (R101, R102). No host can issue one (R105, R111). -/
inductive InternalWord where
  | micro (v n : Nat)
  | wire (bits : List Bool)
deriving DecidableEq, Repr

/-- A word in any of the formats of R100. -/
inductive Word where
  | host (w : HostWord)
  | internal (w : InternalWord)
deriving DecidableEq, Repr

end Sys2Proof
end

