-- ==== Sys2Proof/Config.lean ====
section
/-! DEFINITION. The configuration of the block (spec/00_scope.md R8) and the free values of its environment. -/

namespace Sys2Proof

/-- `NUM_REGS` (R8): display registers 0..11. -/
abbrev numRegs : Nat := 12

/-- `MAX_TEXT` (R8): digit registers available to text. -/
abbrev maxText : Nat := 10

/-- `SUBWRITES` (R8): nibble writes per register write. -/
abbrev subwrites : Nat := 5

/-- `ADDR_BITS` (R8). -/
abbrev addrBits : Nat := 6

/-- `NIB_BITS` (R8). -/
abbrev nibBits : Nat := 4

/-- `CMD_BITS` (R8). -/
abbrev cmdBits : Nat := 8

/-- `PREFIX_CMD` (R8, R101), sent as 4 bits. -/
abbrev prefixCmd : Nat := 0b1000

/-- `PREFIX_WR` (R8, R102), sent as 3 bits. -/
abbrev prefixWr : Nat := 0b101

/-- The acceleration policy: thresholds `ACCEL_T1..T3` and multipliers `ACCEL_M0..M3`, "fixed policy constants,
tunable" (R8, R240). -/
structure Accel where
  t1 : Nat
  t2 : Nat
  t3 : Nat
  m0 : Nat
  m1 : Nat
  m2 : Nat
  m3 : Nat
deriving DecidableEq, Repr

/-- The values the source gives (R8): normative unless a configuration states others. -/
def Accel.reference : Accel :=
  { t1 := 8, t2 := 10, t3 := 14, m0 := 1, m1 := 50, m2 := 100, m3 := 500 }

/-- The configuration of R8, fixed before reset (R312) and constant afterwards (R30, R42, R46).
The timing parameters of R8 are left out: no rule depends on them (R317; log 15). -/
structure Config where
  /-- `GLYPH[0..41]` (R130). -/
  glyph : Vector Half 42
  /-- `DP_MASK[1..9]` (R137); entry `i` here is `DP_MASK[i + 1]`. -/
  dpMask : Vector Half 9
  /-- `CMD_SYS_EN`, "system-enable". -/
  cmdSysEn : Byte
  /-- `CMD_CLK_32K`, "32 kHz clock select". -/
  cmdClk32k : Byte
  /-- `CMD_DISP_ON`, "display-on". -/
  cmdDispOn : Byte
  /-- `CMD_DISP_OFF`, "display off". -/
  cmdDispOff : Byte
  accel : Accel
  /-- `VALUE_INIT`: a Nat, since "`VALUE_INIT ≥ 0`" (R40). -/
  valueInit : Nat
  /-- `POSITION_INIT` (R39). -/
  positionInit : Int
  /-- `VALUE_WIDTH` (R241): none in the reference. -/
  valueWidth : Option Nat
  /-- `STUCK_TIMEOUT` (R265): none in the reference. -/
  stuckTimeout : Option Nat
deriving DecidableEq, Repr

/-- OPEN (R8, decision D11): the glyph patterns of the chip. Nothing is known of them. -/
opaque Config.openGlyph : Vector Half 42

/-- OPEN (R8, decision D12): the decimal-point masks of the chip. -/
opaque Config.openDpMask : Vector Half 9

/-- OPEN (R8, decision D10). -/
opaque Config.openCmdSysEn : Byte

/-- OPEN (R8, decision D10). -/
opaque Config.openCmdClk32k : Byte

/-- OPEN (R8, decision D10). -/
opaque Config.openCmdDispOn : Byte

/-- OPEN (R8, decision D10). -/
opaque Config.openCmdDispOff : Byte

/-- OPEN (R8, decision D22). -/
opaque Config.openValueInit : Nat

/-- OPEN (R8, decision D23). -/
opaque Config.openPositionInit : Int

/-- The configuration a run from `State.reset` has: every OPEN value an unknown constant, the thresholds and
multipliers of R8, and the reference `VALUE_WIDTH = none`, `STUCK_TIMEOUT = none` (DESIGN CHOICE, log 3). -/
def Config.platform : Config where
  glyph := Config.openGlyph
  dpMask := Config.openDpMask
  cmdSysEn := Config.openCmdSysEn
  cmdClk32k := Config.openCmdClk32k
  cmdDispOn := Config.openCmdDispOn
  cmdDispOff := Config.openCmdDispOff
  accel := Accel.reference
  valueInit := Config.openValueInit
  positionInit := Config.openPositionInit
  valueWidth := none
  stuckTimeout := none

/-- FREE VALUE (R243, decision D24; log 4): the pulse count of the `k`-th draw, "any Nat, unconstrained". -/
opaque Config.freePulseCount : Nat → Nat

/-- FREE VALUE (R264; log 5): the level of `BUTTON_N` at the `k`-th draw, `true` = 1 = released. -/
opaque Config.freeButton : Nat → Bool

/-- FREE VALUE (R43, R44, decision D9; log 6): what the display memory's cell `a` holds at power-up. -/
opaque Config.powerUpNibble : Nat → Nibble

end Sys2Proof
end

