-- ==== Sys2Proof/Syntax.lean ====
section
/-! DEFINITION. The instructions: one constructor per row of spec/opcode_table.json (spec/30_encoding.md R100, R104). -/

namespace Sys2Proof

/-- The operations of R104, the reserved opcodes (R109), the MICRO row (R111) and the two wire frames (R101, R102). -/
inductive Instr where
  /-- INIT, opcode 0x01 (R190). -/
  | init
  /-- POWER_OFF, opcode 0x02 (R191). -/
  | powerOff
  /-- POWER_ON, opcode 0x03 (R192). -/
  | powerOn
  /-- CLEAR, opcode 0x04 (R193). -/
  | clear
  /-- FILL, opcode 0x05 (R194). -/
  | fill
  /-- SET_DP, opcode 0x06 (R195). -/
  | setDp (pos : Int)
  /-- CLEAR_DP, opcode 0x07 (R196). -/
  | clearDp
  /-- PRINT_INTEGER, opcode 0x08 (R199). -/
  | printInteger (n : Int)
  /-- PRINT_CHAR, opcode 0x09 (R200). -/
  | printChar (index : Int) (c : Byte)
  /-- PRINT_TEXT, opcode 0x0A (R201). -/
  | printText (s : List Byte)
  /-- SEND_COMMAND, opcode 0x10 (R162). -/
  | sendCommand (cmd : Byte)
  /-- WRITE_REGISTER, opcode 0x11 (R163). -/
  | writeRegister (addr : Nibble) (data : Half)
  /-- LOOKUP_GLYPH, opcode 0x20 (R136). -/
  | lookupGlyph (c : Byte)
  /-- LOOKUP_DP, opcode 0x21 (R138). -/
  | lookupDp (pos : Int)
  /-- ENCODER_MOVE, opcode 0x30 (R242). -/
  | encoderMove (newPosition : Int)
  /-- BUTTON_PRESS, opcode 0x31 (R262). -/
  | buttonPress
  /-- Any opcode that is not in the table of R104 (R109). -/
  | reserved (opcode : Byte)
  /-- SEND_BITS, the internal micro-operation (R160). -/
  | sendBits (v n : Nat)
  /-- FRAME_CMD: the wire frame `1000 cccccccc` (R101, R162). -/
  | frameCmd (c : Byte)
  /-- FRAME_WR: the wire frame `101 aaaaaa dddd` (R102, R163). -/
  | frameWr (a : Addr6) (d : Nibble)
deriving DecidableEq, Repr

/-- The formats of R100. -/
inductive Format where
  | host
  | micro
  | wireCmd
  | wireWr
deriving DecidableEq, Repr

/-- The format column of the opcode table. -/
def Instr.format : Instr → Format
  | .init | .powerOff | .powerOn | .clear | .fill | .setDp _ | .clearDp | .printInteger _ | .printChar _ _
  | .printText _ | .sendCommand _ | .writeRegister _ _ | .lookupGlyph _ | .lookupDp _ | .encoderMove _
  | .buttonPress | .reserved _ => .host
  | .sendBits _ _ => .micro
  | .frameCmd _ => .wireCmd
  | .frameWr _ _ => .wireWr

end Sys2Proof
end

