-- ==== Sys2Proof/WellFormed.lean ====
section
/-! DEFINITION. Which terms of `Instr` are instructions of the table (spec/30_encoding.md R104, R109, R111). -/

namespace Sys2Proof

/-- The opcodes of the table of R104. -/
def assignedOpcodes : List Byte :=
  [0x01, 0x02, 0x03, 0x04, 0x05, 0x06, 0x07, 0x08, 0x09, 0x0A, 0x10, 0x11, 0x20, 0x21, 0x30, 0x31]

/-- The bit counts of SEND_BITS: "one of 3, 4, 6, 8 (the only counts any caller uses)" (R160). -/
def sendBitsCounts : List Nat := [3, 4, 6, 8]

/-- The two checks that are not in the operands' types: a reserved opcode is one the table does not assign (R109),
and SEND_BITS has one of its four bit counts (R160). Operands outside a range the spec checks at run time (R115)
are well formed: the operation runs and ends with its error. -/
def Instr.wf : Instr → Bool
  | .reserved opcode => !assignedOpcodes.contains opcode
  | .sendBits _ n => sendBitsCounts.contains n
  | .init | .powerOff | .powerOn | .clear | .fill | .setDp _ | .clearDp | .printInteger _ | .printChar _ _
  | .printText _ | .sendCommand _ | .writeRegister _ _ | .lookupGlyph _ | .lookupDp _ | .encoderMove _
  | .buttonPress | .frameCmd _ | .frameWr _ _ => true

end Sys2Proof
end

