-- ==== Sys2Proof/Decode.lean ====
section
/-! DEFINITION. Decoding and encoding of host operations, SEND_BITS and wire frames (spec/30_encoding.md R100 to R106,
spec/20_memory.md R71, R74). -/

namespace Sys2Proof

/-- The low `n` bits of `v`, most significant first: "for each bit position from `n-1` down to `0`" (R74, R160). -/
def bitsMsb : (n v : Nat) → List Bool
  | 0, _ => []
  | n + 1, v => v.testBit n :: bitsMsb n v

/-- The number a bit string stands for, "first most significant" (R71). -/
def natOfBits (bits : List Bool) : Nat :=
  bits.foldl (fun acc b => 2 * acc + b.toNat) 0

/-- Why a word is no operation word. -/
inductive DecodeError where
  /-- The operands are not those the opcode's row lists (R104). -/
  | operandTypes (opcode : Byte)
  /-- Neither 12 bits with prefix 1000 nor 13 bits with prefix 101 (R71, R110). -/
  | notAFrame (bits : List Bool)
  /-- SEND_BITS with a count other than 3, 4, 6, 8 (R160). -/
  | bitCount (n : Nat)
deriving DecidableEq, Repr

/-- The bits of one chip-select bracket read as a wire frame (R71): a closed frame of 12 bits with prefix 1000, or of
13 bits with prefix 101 (R101, R102, R103). -/
def decodeWire (bits : List Bool) : Except DecodeError Instr :=
  if bits.length = 12 ∧ bits.take 4 = [true, false, false, false] then
    .ok (.frameCmd (BitVec.ofNat 8 (natOfBits (bits.drop 4))))
  else if bits.length = 13 ∧ bits.take 3 = [true, false, true] then
    .ok (.frameWr (BitVec.ofNat 6 (natOfBits ((bits.drop 3).take 6))) (BitVec.ofNat 4 (natOfBits (bits.drop 9))))
  else .error (.notAFrame bits)

/-- A row without operands. -/
def readNone (i : Instr) : List Operand → Option Instr
  | [] => some i
  | _ => none

/-- A row with one Int. -/
def readInt (f : Int → Instr) : List Operand → Option Instr
  | [.int v] => some (f v)
  | _ => none

/-- A row with one 8-bit operand. -/
def readByte (f : Byte → Instr) : List Operand → Option Instr
  | [.byte v] => some (f v)
  | _ => none

/-- A row with a list of 8-bit codes. -/
def readText (f : List Byte → Instr) : List Operand → Option Instr
  | [.text s] => some (f s)
  | _ => none

/-- A row with an Int and an 8-bit operand. -/
def readIntByte (f : Int → Byte → Instr) : List Operand → Option Instr
  | [.int v, .byte c] => some (f v c)
  | _ => none

/-- A row with a 4-bit and a 16-bit operand. -/
def readNibbleHalf (f : Nibble → Half → Instr) : List Operand → Option Instr
  | [.nibble v, .half d] => some (f v d)
  | _ => none

/-- The opcode map of R104: how each opcode's operands are read; none for an opcode that is not in the map. -/
def hostRow (opcode : Byte) : Option (List Operand → Option Instr) :=
  if opcode = 0x01 then some (readNone .init)
  else if opcode = 0x02 then some (readNone .powerOff)
  else if opcode = 0x03 then some (readNone .powerOn)
  else if opcode = 0x04 then some (readNone .clear)
  else if opcode = 0x05 then some (readNone .fill)
  else if opcode = 0x06 then some (readInt .setDp)
  else if opcode = 0x07 then some (readNone .clearDp)
  else if opcode = 0x08 then some (readInt .printInteger)
  else if opcode = 0x09 then some (readIntByte .printChar)
  else if opcode = 0x0A then some (readText .printText)
  else if opcode = 0x10 then some (readByte .sendCommand)
  else if opcode = 0x11 then some (readNibbleHalf .writeRegister)
  else if opcode = 0x20 then some (readByte .lookupGlyph)
  else if opcode = 0x21 then some (readInt .lookupDp)
  else if opcode = 0x30 then some (readInt .encoderMove)
  else if opcode = 0x31 then some (readNone .buttonPress)
  else none

/-- A host word: the row of its opcode (R104); an opcode without a row is reserved, "whatever its operands" (R109,
R285). -/
def decodeHost (w : HostWord) : Except DecodeError Instr :=
  match hostRow w.opcode with
  | none => .ok (.reserved w.opcode)
  | some read =>
    match read w.operands with
    | some i => .ok i
    | none => .error (.operandTypes w.opcode)

/-- The block's own words (R100, R111). -/
def decodeInternal : InternalWord → Except DecodeError Instr
  | .micro v n => if sendBitsCounts.contains n then .ok (.sendBits v n) else .error (.bitCount n)
  | .wire bits => decodeWire bits

/-- The decoder, total on every word. -/
def decode : Word → Except DecodeError Instr
  | .host w => decodeHost w
  | .internal w => decodeInternal w

/-- The bits of a command frame in the order they are sent (R101). -/
def frameCmdBits (c : Byte) : List Bool :=
  bitsMsb 4 prefixCmd ++ bitsMsb cmdBits c.toNat

/-- The bits of a write frame in the order they are sent (R102). -/
def frameWrBits (a : Addr6) (d : Nibble) : List Bool :=
  bitsMsb 3 prefixWr ++ bitsMsb addrBits a.toNat ++ bitsMsb nibBits d.toNat

/-- A host word from its opcode and operands (R104). -/
def hostWord (opcode : Byte) (operands : List Operand) : Word :=
  .host { opcode := opcode, operands := operands }

/-- The encoder: the word of an instruction, from the same tables (R101, R102, R104). -/
def encode : Instr → Word
  | .init => hostWord 0x01 []
  | .powerOff => hostWord 0x02 []
  | .powerOn => hostWord 0x03 []
  | .clear => hostWord 0x04 []
  | .fill => hostWord 0x05 []
  | .setDp pos => hostWord 0x06 [.int pos]
  | .clearDp => hostWord 0x07 []
  | .printInteger n => hostWord 0x08 [.int n]
  | .printChar index c => hostWord 0x09 [.int index, .byte c]
  | .printText s => hostWord 0x0A [.text s]
  | .sendCommand cmd => hostWord 0x10 [.byte cmd]
  | .writeRegister addr data => hostWord 0x11 [.nibble addr, .half data]
  | .lookupGlyph c => hostWord 0x20 [.byte c]
  | .lookupDp pos => hostWord 0x21 [.int pos]
  | .encoderMove newPosition => hostWord 0x30 [.int newPosition]
  | .buttonPress => hostWord 0x31 []
  | .reserved opcode => hostWord opcode []
  | .sendBits v n => .internal (.micro v n)
  | .frameCmd c => .internal (.wire (frameCmdBits c))
  | .frameWr a d => .internal (.wire (frameWrBits a d))

/-- The operands of an opcode's row (R104, R105), every one of them zero. -/
def zeroOperands (opcode : Byte) : List Operand :=
  match opcode.toNat with
  | 0x06 | 0x08 | 0x21 | 0x30 => [.int 0]
  | 0x09 => [.int 0, .byte 0]
  | 0x0A => [.text []]
  | 0x10 | 0x20 => [.byte 0]
  | 0x11 => [.nibble 0, .half 0]
  | _ => []

/-- The number of bits of the frame whose table number is `w`: both formats begin with a 1, so the leading 1 is bit 11
of a command frame and bit 12 of a write frame (R101, R102, R103; log 16). -/
def wireWidth (w : Nat) : Nat :=
  if w < 2 ^ 12 then 12 else 13

/-- The word whose bits, numbered as spec/opcode_table.json numbers them, are `w` (log 16). A HOST row has 8 bits, the
opcode, and typed operands outside them; a longer row is a wire frame, its highest bit sent first. -/
def tableWord (nbits w : Nat) : Word :=
  if nbits ≤ 8 then hostWord (BitVec.ofNat 8 w) (zeroOperands (BitVec.ofNat 8 w))
  else .internal (.wire (bitsMsb (wireWidth w) w))

/-- The instruction the decoder reads from a word of the opcode table; none where it refuses. -/
def decodeTableWord (nbits w : Nat) : Option Instr :=
  (decode (tableWord nbits w)).toOption

end Sys2Proof
end

