-- ==== Sys2Proof/Machine/State.lean ====
section
/-! DEFINITION. The state of the machine (spec/10_state.md R30 to R44), its reset value and the reasons a step can stop. -/

namespace Sys2Proof.Machine

/-- The three output lines (R31). -/
inductive Line where
  | data
  | wr
  | cs
deriving DecidableEq, Repr

/-- An output event (00_scope.md R12). -/
inductive Event where
  /-- `SetLine(l, v)`. -/
  | setLine (l : Line) (v : Bool)
  /-- `CounterReset`: the external pulse counter is reset to zero. -/
  | counterReset
deriving DecidableEq, Repr

/-- The line latches `line[DATA]`, `line[WR]`, `line[CS]` (R31); `true` = 1 = high. -/
structure Lines where
  data : Bool
  wr   : Bool
  cs   : Bool
deriving DecidableEq, Repr

/-- The idle levels: DATA low, WR low, CS deasserted high (R32, R33, R44). -/
def Lines.idle : Lines :=
  { data := false, wr := false, cs := true }

/-- SPEED (R41). -/
inductive Speed where
  | hz
  | khz
  | mhz
deriving DecidableEq, Repr

/-- The status of RESULT (R36, 60_exceptions.md R280). -/
inductive Status where
  | ok
  | unsupportedCharacter
  | displayOverflow
  | stuckInput
  | illegalOperation
  | operandRange
deriving DecidableEq, Repr

/-- A return value (R36): a pattern of LOOKUP_GLYPH, a (register, mask) pair of LOOKUP_DP, the VALUE of ENCODER_MOVE. -/
inductive ReturnValue where
  | pattern (p : Half)
  | dpEntry (reg : Nibble) (mask : Half)
  | value (v : Int)
deriving DecidableEq, Repr

/-- RESULT (R36): "a status … and, for OK, an optional return value". -/
structure Result where
  status : Status
  value  : Option ReturnValue
deriving DecidableEq, Repr

/-- SEQ (R35). -/
inductive Seq where
  /-- No operation in progress. -/
  | idle
  /-- `BUSY(op, k)`: `op` accepted, the first `k` events of its sequence emitted. -/
  | busy (op : Instr) (k : Nat)
  /-- BUTTON_PRESS in its fixed delay. -/
  | debounce
  /-- BUTTON_PRESS polling; `n` polls have seen the button pressed. -/
  | waitRelease (n : Nat)
deriving DecidableEq, Repr

/-- The display memory `NIB[0..63]` (20_memory.md R72): the cells a write frame has written, addresses strictly
rising. An unlisted cell still holds its power-up value, "any value" (R44; log 6). -/
abbrev Nib := List (Nat × Nibble)

/-- The receiver (20_memory.md R71, R72), external to the block. -/
structure Receiver where
  /-- The bits of the frame that is open, first sampled first; none while no frame is open (log 8). -/
  frame : Option (List Bool)
  nib   : Nib
deriving DecidableEq, Repr

/-- The whole state: the block (R30), the external state it acts on, the observation, the ports, the configuration,
and the model's own fields (INVENTORY.md lists each with its rule and reset value). -/
structure State where
  /-- The configuration (00_scope.md R8); no step writes it (R42, R46). -/
  cfg      : Config
  /-- `line[DATA]`, `line[WR]`, `line[CS]` (R31). -/
  lines    : Lines
  /-- LAST_POS (R39). -/
  lastPos  : Int
  /-- VALUE (R40). -/
  value    : Int
  /-- SPEED (R41). -/
  speed    : Speed
  /-- SEQ (R35). -/
  seq      : Seq
  /-- RESULT (R36). -/
  result   : Result
  /-- The receiver with its `NIB` (R43). -/
  receiver : Receiver
  /-- The observation, oldest event first (00_scope.md R12). -/
  trace    : List Event
  /-- The host operation port: what the host presents, the held operation first (R38, R290; log 2). -/
  port     : List HostWord
  /-- MODEL's own: the pulse count drawn by the ENCODER_MOVE in progress, "rotspeed" (log 7). -/
  rotspeed : Nat
  /-- MODEL's own: a micro-operation or wire frame given to the frame encoder on its own (log 11). -/
  issue    : Option InternalWord
  /-- MODEL's own: pulse counts the environment has ready for the next draws (log 4). -/
  pulses   : List Nat
  /-- MODEL's own: button levels the environment has ready for the next polls (log 5). -/
  buttons  : List Bool
  /-- MODEL's own: how many free values have been drawn (logs 4, 5). -/
  draws    : Nat
deriving DecidableEq, Repr

/-- The state a run begins from under a configuration (R44, 70_reset_and_hazards.md R310, R311). -/
def State.powerUp (cfg : Config) : State where
  cfg := cfg
  lines := Lines.idle
  lastPos := cfg.positionInit
  value := cfg.valueInit
  speed := .hz
  seq := .idle
  result := { status := .ok, value := none }
  receiver := { frame := none, nib := [] }
  trace := []
  port := []
  rotspeed := 0
  issue := none
  pulses := []
  buttons := []
  draws := 0

/-- The machine right after reset (R44, R310, R311), its OPEN parameters unknown constants (log 3). -/
def State.reset : State :=
  State.powerUp Config.platform

/-- The reasons the machine can stop with a fault: none. "No behaviour of the PPDE core is treated as `fault`"
(93_implementation_defined.md; log 18). -/
inductive Fault
deriving DecidableEq, Repr

/-- The reasons the model gives no meaning. -/
inductive Refusal where
  /-- Raised by an arm of `exec` whose instruction has no meaning yet; no arm raises it. Safe: the model stops. -/
  | notModelled (mnemonic : String)
  /-- Raised by the step that fetches a word which is no operation word: operands that are not of its row's types
  (R104), a bit string that is no frame (R71, R110), a SEND_BITS count outside 3, 4, 6, 8 (R160). Safe: the model
  stops, and the spec gives such a word no effect (logs 10, 11). -/
  | badWord (e : DecodeError)
deriving DecidableEq, Repr

end Sys2Proof.Machine
end

