-- ==== Sys2Proof/Machine/Ops.lean ====
section
/-! DEFINITION. The shared operations: line latches, display memory, receiver, events, the end of an operation (with or
without an error), the draws of the environment, and fetching from the port. -/

namespace Sys2Proof.Machine

/-- `line[l] <- v` (00_scope.md R12). -/
def Lines.set (l : Line) (v : Bool) (ls : Lines) : Lines :=
  match l with
  | .data => { ls with data := v }
  | .wr => { ls with wr := v }
  | .cs => { ls with cs := v }

/-- The payload last written to cell `a`; none while it holds its power-up value (20_memory.md R83). -/
def Nib.read (a : Nat) : Nib → Option Nibble
  | [] => none
  | (b, d) :: m => if a = b then some d else Nib.read a m

/-- `NibWrite(a, d)`: `NIB[a] <- d` (20_memory.md R72), keeping the addresses strictly rising. -/
def Nib.write (a : Nat) (d : Nibble) : Nib → Nib
  | [] => [(a, d)]
  | (b, e) :: m =>
    if a < b then (a, d) :: (b, e) :: m
    else if a = b then (a, d) :: m
    else (b, e) :: Nib.write a d m

/-- The addresses rise strictly from `lo` on and stay within the 64 cells. -/
def Nib.risesFrom (lo : Nat) : Nib → Bool
  | [] => true
  | (b, _) :: m => decide (lo ≤ b) && decide (b < 64) && Nib.risesFrom (b + 1) m

/-- The canonical form of the display memory: strictly rising addresses, each one of the 64 cells (R72). -/
def Memory.wf (m : Nib) : Bool :=
  Nib.risesFrom 0 m

/-- What cell `a` holds: the last payload written, else its power-up value, a free value (R44, R83; log 6). -/
def Nib.cell (m : Nib) (a : Nat) : Nibble :=
  (Nib.read a m).getD (Config.powerUpNibble a)

/-- The register view `REG[r] = NIB[4r] ‖ NIB[4r+1] ‖ NIB[4r+2] ‖ NIB[4r+3]` (20_memory.md R73). -/
def Nib.reg (m : Nib) (r : Nat) : Half :=
  m.cell (4 * r) ++ m.cell (4 * r + 1) ++ m.cell (4 * r + 2) ++ m.cell (4 * r + 3)

/-- A closed frame acts on the receiver (R71, R72): a write frame performs `NibWrite`; a command frame, or a bit
string that is no frame, leaves `NIB` (R72, R83; log 8). -/
def Receiver.close (bits : List Bool) (r : Receiver) : Receiver :=
  match decodeWire bits with
  | .ok (.frameWr a d) => { frame := none, nib := Nib.write a.toNat d r.nib }
  | .ok _ => { r with frame := none }
  | .error _ => { r with frame := none }

/-- What the receiver does at `SetLine(l, v)` while DATA is at `data` (R71): a frame opens when CS falls, samples DATA
when WR rises, and closes when CS rises. -/
def Receiver.sense (l : Line) (v data : Bool) (r : Receiver) : Receiver :=
  match l, v with
  | .cs, false => { r with frame := some [] }
  | .cs, true =>
    match r.frame with
    | some bits => r.close bits
    | none => r
  | .wr, true =>
    match r.frame with
    | some bits => { r with frame := some (bits ++ [data]) }
    | none => r
  | .wr, false => r
  | .data, _ => r

/-- `Emit(e)` (00_scope.md R12): the trace grows by `e`, a SetLine sets its latch, and the receiver reacts (R71). -/
def State.emit (e : Event) (s : State) : State :=
  match e with
  | .setLine l v =>
    { s with
      lines := s.lines.set l v
      receiver := s.receiver.sense l v s.lines.data
      trace := s.trace ++ [.setLine l v] }
  | .counterReset => { s with trace := s.trace ++ [.counterReset] }

/-- The events in order. -/
def State.emitAll (es : List Event) (s : State) : State :=
  es.foldl (fun t e => t.emit e) s

/-- `return v` (00_scope.md R14): RESULT is (OK, v) and SEQ returns to IDLE (10_state.md R35, R36). -/
def State.complete (v : Option ReturnValue) (s : State) : State :=
  { s with result := { status := .ok, value := v }, seq := .idle }

/-- TAKING AN ERROR, the counterpart of an exception (60_exceptions.md R281, R286): "`RESULT <- (error code, none)` and
`SEQ <- IDLE`"; nothing is saved and control goes nowhere. There is no return from one (R287). -/
def State.raise (e : Status) (s : State) : State :=
  { s with result := { status := e, value := none }, seq := .idle }

/-- Reset at any time (70_reset_and_hazards.md R310, R311): a new run begins under the same configuration. The operation
in progress is abandoned with no event, a frame it had open never closes, and `NIB` holds any value, here `nib` (R44).
An action of the environment, not a step. DESIGN CHOICE (log 17): the spec says only that the pulse counts and button
levels of the new run are unconstrained (R44, R243, R264); the environment's supply, `pulses`, `buttons` and `draws`, goes
on from where it was, so that a new run does not repeat the free draws of the old one. -/
def State.restart (nib : Nib) (s : State) : State :=
  { State.powerUp s.cfg with
    receiver := { frame := none, nib := nib }
    pulses := s.pulses
    buttons := s.buttons
    draws := s.draws }

/-- The operation is accepted and has emitted nothing yet: SEQ is BUSY(op, 0) (10_state.md R35). -/
def State.accept (op : Instr) (s : State) : State :=
  { s with seq := .busy op 0 }

/-- `Draw(PULSE_COUNT)` (43_quantizer.md R243): the environment's next value if it has one ready, else a free value. -/
def State.drawnPulse (s : State) : Nat :=
  s.pulses.headD (Config.freePulseCount s.draws)

/-- The environment after `Draw(PULSE_COUNT)`. -/
def State.afterPulse (s : State) : State :=
  { s with pulses := s.pulses.tail, draws := if s.pulses = [] then s.draws + 1 else s.draws }

/-- `Draw(BUTTON_N)` (44_speed_range.md R264); `true` = 1 = released. -/
def State.drawnButton (s : State) : Bool :=
  s.buttons.headD (Config.freeButton s.draws)

/-- The environment after `Draw(BUTTON_N)`. -/
def State.afterButton (s : State) : State :=
  { s with buttons := s.buttons.tail, draws := if s.buttons = [] then s.draws + 1 else s.draws }

/-- The next operation and the state with it taken from where it waited: the frame encoder's own issue latch first
(log 11), else the operation the host port holds (R290); none when nothing is presented. -/
def State.fetch (s : State) : Option (Except DecodeError Instr × State) :=
  match s.issue with
  | some w => some (decodeInternal w, { s with issue := none })
  | none =>
    match s.port with
    | w :: rest => some (decodeHost w, { s with port := rest })
    | [] => none

end Sys2Proof.Machine
end

