-- ==== Sys2Proof/Machine/Reserved.lean ====
section
/-! DEFINITION. The reserved opcodes (spec/30_encoding.md R109, spec/60_exceptions.md R285). -/

namespace Sys2Proof.Machine

/-- An opcode outside the table: accepted, no event, no state change but RESULT = IllegalOperation (R109). -/
def execReserved (_opcode : Byte) (s : State) : Host.Outcome State Fault Refusal :=
  .next (s.raise .illegalOperation)

end Sys2Proof.Machine
end

