-- ==== Sys2Proof/Machine/Operands.lean ====
section
/-! DEFINITION. Operand forms: the two lookup ROMs and their index functions (spec/40_tables.md), the decimal text
(spec/42_display.md R198), the sub-write fields (spec/30_encoding.md R106, R107), the acceleration map and the width
check (spec/43_quantizer.md R240, R241), the speed-range tables (spec/44_speed_range.md R260). -/

namespace Sys2Proof.Machine

/-- The values of `glyph_index` (R131). -/
inductive GlyphIndex where
  | blank
  | index (i : Fin 42)
  | unsupported
deriving DecidableEq, Repr

/-- `glyph_index(c)` (R131, R132). -/
def glyphIndex (c : Byte) : GlyphIndex :=
  if c.toNat = 0x20 then .blank
  else if h : 0x2A ≤ c.toNat ∧ c.toNat ≤ 0x39 then .index ⟨c.toNat - 0x2A, by omega⟩
  else if h : 0x41 ≤ c.toNat ∧ c.toNat ≤ 0x5A then .index ⟨c.toNat - 0x41 + 16, by omega⟩
  else .unsupported

/-- `char_pattern(c)` (R134, R135); none is UnsupportedCharacter. -/
def charPattern (cfg : Config) (c : Byte) : Option Half :=
  match glyphIndex c with
  | .blank => some 0x0000
  | .index i => some cfg.glyph[i]
  | .unsupported => none

/-- The patterns of a string; none when any character is unsupported (R201). -/
def charPatterns (cfg : Config) : List Byte → Option (List Half)
  | [] => some []
  | c :: cs =>
    match charPattern cfg c, charPatterns cfg cs with
    | some p, some ps => some (p :: ps)
    | _, _ => none

/-- `dp_entry(p)` (R137). -/
def dpEntry (cfg : Config) (p : Int) : Option (Nibble × Half) :=
  if h : 1 ≤ p ∧ p ≤ 3 then some (11, cfg.dpMask[(p - 1).toNat]'(by omega))
  else if h : 4 ≤ p ∧ p ≤ 9 then some (10, cfg.dpMask[(p - 1).toNat]'(by omega))
  else none

/-- The decimal digits of `n`, least significant first; `fuel` bounds their number. -/
def decimalDigits : (fuel n : Nat) → List Nat
  | 0, _ => []
  | fuel + 1, n => n % 10 :: (if n < 10 then [] else decimalDigits fuel (n / 10))

/-- The digits of `n`, least significant first. A number has at most `log2 n + 1` of them. -/
def digits (n : Nat) : List Nat :=
  decimalDigits (n.log2 + 1) n

/-- The character of a decimal digit (00_scope.md R11). -/
def digitChar (d : Nat) : Byte :=
  BitVec.ofNat 8 (0x30 + d)

/-- `str10(n)` (R198), the most significant digit first. -/
def str10 (n : Nat) : List Byte :=
  (digits n).reverse.map digitChar

/-- `nib_i` before SEND_BITS truncates it: "`(data << (4*i)) >> 12`", exact shifts (R107, R163). -/
def subNib (data : Half) (i : Nat) : Nat :=
  (data.toNat <<< (4 * i)) >>> 12

/-- The address of sub-write `i` before SEND_BITS truncates it: `4·addr + i` (R106, R163). -/
def subAddr (addr i : Nat) : Nat :=
  4 * addr + i

/-- `accel(r)` (R240). -/
def accel (a : Accel) (r : Nat) : Nat :=
  if r ≤ a.t1 then a.m0
  else if r ≤ a.t2 then a.m1
  else if r ≤ a.t3 then a.m2
  else a.m3

/-- The W-bit signed range [-2^(W-1), 2^(W-1)-1] (R115, R241), both sides doubled so that W = 0 needs no half. -/
def fitsWidth (w : Nat) (x : Int) : Bool :=
  decide (-(2 ^ w : Int) ≤ 2 * x) && decide (2 * x + 2 ≤ (2 ^ w : Int))

/-- `next(SPEED)` (R260). -/
def Speed.next : Speed → Speed
  | .hz => .khz
  | .khz => .mhz
  | .mhz => .hz

/-- `RANGE_MULT(SPEED)` (R8, R41). -/
def Speed.rangeMult : Speed → Nat
  | .hz => 1
  | .khz => 1000
  | .mhz => 1000000

/-- `UNIT_STR(SPEED)` (R8, R260): "HZ", "K", "M". -/
def Speed.unitStr : Speed → List Byte
  | .hz => [0x48, 0x5A]
  | .khz => [0x4B]
  | .mhz => [0x4D]

/-- The 2-bit encoding of SPEED (R41). -/
def Speed.code : Speed → BitVec 2
  | .hz => 0
  | .khz => 1
  | .mhz => 2

end Sys2Proof.Machine
end

