-- ==== Sys2Proof/Machine/Flags.lean ====
section
/-! DEFINITION. The status an operation reports. The block has no flags (spec/10_state.md R37); its only status is
RESULT, with the codes of spec/60_exceptions.md R280, found by the operand checks of spec/30_encoding.md R115 in the
order listed there (R285). `.ok` means that every check passes. -/

namespace Sys2Proof.Machine

/-- The result status codes (R280). -/
def Status.code : Status → Nat
  | .ok => 0
  | .unsupportedCharacter => 1
  | .displayOverflow => 2
  | .stuckInput => 3
  | .illegalOperation => 4
  | .operandRange => 5

/-- WRITE_REGISTER: addr ≤ 11, else OperandRange (R115, R163). -/
def checkWriteRegister (addr : Nibble) : Status :=
  if addr.toNat > 11 then .operandRange else .ok

/-- LOOKUP_GLYPH: c in the alphabet, else UnsupportedCharacter (R115, R136). -/
def checkLookupGlyph (cfg : Config) (c : Byte) : Status :=
  match charPattern cfg c with
  | some _ => .ok
  | none => .unsupportedCharacter

/-- PRINT_INTEGER: n ≥ 0, else UnsupportedCharacter; then at most ten digits, else DisplayOverflow (R115, R199). -/
def checkPrintInteger (n : Int) : Status :=
  if n < 0 then .unsupportedCharacter
  else if (str10 n.toNat).length > maxText then .displayOverflow
  else .ok

/-- PRINT_CHAR: 0 ≤ index ≤ 9, else DisplayOverflow; then c in the alphabet, else UnsupportedCharacter (R115, R200). -/
def checkPrintChar (cfg : Config) (index : Int) (c : Byte) : Status :=
  if index < 0 ∨ index > 9 then .displayOverflow
  else
    match charPattern cfg c with
    | some _ => .ok
    | none => .unsupportedCharacter

/-- PRINT_TEXT: len(s) ≤ 10, else DisplayOverflow; then every character in the alphabet, else UnsupportedCharacter
(R115, R201). -/
def checkPrintText (cfg : Config) (text : List Byte) : Status :=
  if text.length > maxText then .displayOverflow
  else
    match charPatterns cfg text with
    | some _ => .ok
    | none => .unsupportedCharacter

/-- The scaled step of an encoder movement, `diff * accel(r) * RANGE_MULT(SPEED)` (R242, steps 1, 3 and 4). -/
def moveStep (newPosition : Int) (r : Nat) (s : State) : Int :=
  (newPosition - s.lastPos) * accel s.cfg.accel r * s.speed.rangeMult

/-- The unclamped new VALUE (R242, step 5). -/
def moveTarget (newPosition : Int) (r : Nat) (s : State) : Int :=
  s.value + moveStep newPosition r s

/-- ENCODER_MOVE: with `VALUE_WIDTH` = W set, new_position, the difference, the step and the unclamped VALUE each in the
W-bit signed range, else OperandRange (R115, R241, R242). -/
def checkEncoderMove (newPosition : Int) (r : Nat) (s : State) : Status :=
  match s.cfg.valueWidth with
  | none => .ok
  | some w =>
    if fitsWidth w newPosition && fitsWidth w (newPosition - s.lastPos) && fitsWidth w (moveStep newPosition r s)
        && fitsWidth w (moveTarget newPosition r s) then .ok
    else .operandRange

end Sys2Proof.Machine
end

