-- ==== Sys2Proof/Machine/Quantizer.lean ====
section
/-! DEFINITION. The rotary quantizer (spec/43_quantizer.md): ENCODER_MOVE. -/

namespace Sys2Proof.Machine

/-- The event of ENCODER_MOVE: exactly one, `CounterReset` (R242). -/
def encoderMoveEvents : List Event :=
  [.counterReset]

/-- What ENCODER_MOVE does once its event is emitted (R242): LAST_POS and the clamped VALUE are written, and VALUE is
returned. The pulse count is the one drawn at acceptance (log 7). -/
def State.commitMove (newPosition : Int) (s : State) : State :=
  let v := max 0 (moveTarget newPosition s.rotspeed s)
  State.complete (some (.value v)) { s with lastPos := newPosition, value := v }

/-- `ENCODER_MOVE new_position` (R242): the pulse count is drawn and the width check made at acceptance (R284); the
movement is committed with the event (log 7). -/
def execEncoderMove (newPosition : Int) (s : State) : Host.Outcome State Fault Refusal :=
  match checkEncoderMove newPosition s.drawnPulse s with
  | .ok => .next (State.accept (.encoderMove newPosition) { s.afterPulse with rotspeed := s.drawnPulse })
  | e => .next (s.afterPulse.raise e)

end Sys2Proof.Machine
end

