-- ==== Sys2Proof/Machine/Protocol.lean ====
section
/-! DEFINITION. The protocol engine (spec/41_protocol.md): the event sequences of SEND_BITS, the two wire frames,
SEND_COMMAND and WRITE_REGISTER, and their meanings. -/

namespace Sys2Proof.Machine

/-- One bit: "set the data line to that bit's value … pulse the write/clock line high then low" (R160). -/
def bitEvents (b : Bool) : List Event :=
  [.setLine .data b, .setLine .wr true, .setLine .wr false]

/-- `SEND_BITS v, n` (R160): the low `n` bits, most significant first, then DATA to its idle level. -/
def sendBitsEvents (v n : Nat) : List Event :=
  (bitsMsb n v).flatMap bitEvents ++ [.setLine .data false]

/-- One command frame in its chip-select bracket (R162). -/
def frameCmdEvents (cmd : Nat) : List Event :=
  [.setLine .cs false] ++ sendBitsEvents prefixCmd 4 ++ sendBitsEvents cmd cmdBits ++ [.setLine .cs true]

/-- One write frame in its chip-select bracket (R163). -/
def frameWrEvents (a nib : Nat) : List Event :=
  [.setLine .cs false] ++ sendBitsEvents prefixWr 3 ++ sendBitsEvents a addrBits ++ sendBitsEvents nib nibBits
    ++ [.setLine .cs true]

/-- `SEND_COMMAND cmd` (R162). -/
def sendCommandEvents (cmd : Byte) : List Event :=
  frameCmdEvents cmd.toNat

/-- `WRITE_REGISTER addr, data`: five frames, i = 0..4 (R163, R165). -/
def writeRegisterEvents (addr : Nat) (data : Half) : List Event :=
  (List.range subwrites).flatMap fun i => frameWrEvents (subAddr addr i) (subNib data i)

/-- Register writes in ascending order from register `start`, one per pattern. -/
def writeRunEvents : (start : Nat) → List Half → List Event
  | _, [] => []
  | start, p :: ps => writeRegisterEvents start p ++ writeRunEvents (start + 1) ps

/-- SEND_BITS on its own: accepted, its events follow (R160; log 11). -/
def execSendBits (v n : Nat) (s : State) : Host.Outcome State Fault Refusal :=
  .next (s.accept (.sendBits v n))

/-- FRAME_CMD: one command frame, emitted in its own chip-select bracket (R101, R162; log 12). -/
def execFrameCmd (c : Byte) (s : State) : Host.Outcome State Fault Refusal :=
  .next (s.accept (.frameCmd c))

/-- FRAME_WR: one write frame, emitted in its own chip-select bracket (R102, R163; log 12). -/
def execFrameWr (a : Addr6) (d : Nibble) (s : State) : Host.Outcome State Fault Refusal :=
  .next (s.accept (.frameWr a d))

/-- `SEND_COMMAND cmd` (R162): no check, "no value of cmd is refused". -/
def execSendCommand (cmd : Byte) (s : State) : Host.Outcome State Fault Refusal :=
  .next (s.accept (.sendCommand cmd))

/-- `WRITE_REGISTER addr, data` (R163): "if addr > 11 then raise OperandRange". -/
def execWriteRegister (addr : Nibble) (data : Half) (s : State) : Host.Outcome State Fault Refusal :=
  match checkWriteRegister addr with
  | .ok => .next (s.accept (.writeRegister addr data))
  | e => .next (s.raise e)

end Sys2Proof.Machine
end

