-- ==== Sys2Proof/Machine/Display.lean ====
section
/-! DEFINITION. The display operations (spec/42_display.md): the event sequence of each, built from command frames and
register writes, and its meaning, the acceptance of the operation with its checks (R284). -/

namespace Sys2Proof.Machine

/-- `INIT` (R190): system-enable, 32 kHz clock select, display-on, in this order. -/
def initEvents (cfg : Config) : List Event :=
  sendCommandEvents cfg.cmdSysEn ++ sendCommandEvents cfg.cmdClk32k ++ sendCommandEvents cfg.cmdDispOn

/-- `POWER_OFF` (R191). -/
def powerOffEvents (cfg : Config) : List Event :=
  sendCommandEvents cfg.cmdDispOff

/-- `POWER_ON` (R192). -/
def powerOnEvents (cfg : Config) : List Event :=
  sendCommandEvents cfg.cmdDispOn

/-- `CLEAR` (R193): 0x0000 to registers 0..11, ascending. -/
def clearEvents : List Event :=
  writeRunEvents 0 (List.replicate numRegs 0x0000)

/-- `FILL` (R194): 0xFFFF to registers 0..11, ascending. -/
def fillEvents : List Event :=
  writeRunEvents 0 (List.replicate numRegs 0xFFFF)

/-- `SET_DP pos` (R195): the mask to the position's register; nothing outside 1..9. -/
def setDpEvents (cfg : Config) (pos : Int) : List Event :=
  match dpEntry cfg pos with
  | some (reg, mask) => writeRegisterEvents reg.toNat mask
  | none => []

/-- `CLEAR_DP` (R196): 0x0000 to register 10, then 11. -/
def clearDpEvents : List Event :=
  writeRunEvents 10 [0x0000, 0x0000]

/-- `PRINT_INTEGER n` (R199): CLEAR, then the digits, least significant first, from register 0. -/
def printIntegerEvents (cfg : Config) (n : Int) : List Event :=
  match charPatterns cfg (str10 n.toNat).reverse with
  | some ps => clearEvents ++ writeRunEvents 0 ps
  | none => []

/-- `PRINT_CHAR index, c` (R200). -/
def printCharEvents (cfg : Config) (index : Int) (c : Byte) : List Event :=
  match charPattern cfg c with
  | some p => writeRegisterEvents index.toNat p
  | none => []

/-- `PRINT_TEXT s` (R201): left to right from register `10 - len(s)`. -/
def printTextEvents (cfg : Config) (text : List Byte) : List Event :=
  match charPatterns cfg text with
  | some ps => writeRunEvents (maxText - text.length) ps
  | none => []

/-- `INIT` (R190). -/
def execInit (s : State) : Host.Outcome State Fault Refusal :=
  .next (s.accept .init)

/-- `POWER_OFF` (R191). -/
def execPowerOff (s : State) : Host.Outcome State Fault Refusal :=
  .next (s.accept .powerOff)

/-- `POWER_ON` (R192). -/
def execPowerOn (s : State) : Host.Outcome State Fault Refusal :=
  .next (s.accept .powerOn)

/-- `CLEAR` (R193). -/
def execClear (s : State) : Host.Outcome State Fault Refusal :=
  .next (s.accept .clear)

/-- `FILL` (R194). -/
def execFill (s : State) : Host.Outcome State Fault Refusal :=
  .next (s.accept .fill)

/-- `SET_DP pos` (R195): outside 1..9 "no-op", complete in the acceptance step (10_state.md R35). -/
def execSetDp (pos : Int) (s : State) : Host.Outcome State Fault Refusal :=
  match dpEntry s.cfg pos with
  | some _ => .next (s.accept (.setDp pos))
  | none => .next (s.complete none)

/-- `CLEAR_DP` (R196). -/
def execClearDp (s : State) : Host.Outcome State Fault Refusal :=
  .next (s.accept .clearDp)

/-- `PRINT_INTEGER n` (R199). -/
def execPrintInteger (n : Int) (s : State) : Host.Outcome State Fault Refusal :=
  match checkPrintInteger n with
  | .ok => .next (s.accept (.printInteger n))
  | e => .next (s.raise e)

/-- `PRINT_CHAR index, c` (R200). -/
def execPrintChar (index : Int) (c : Byte) (s : State) : Host.Outcome State Fault Refusal :=
  match checkPrintChar s.cfg index c with
  | .ok => .next (s.accept (.printChar index c))
  | e => .next (s.raise e)

/-- `PRINT_TEXT s` (R201): the empty string emits nothing and completes in the acceptance step (10_state.md R35). -/
def execPrintText (text : List Byte) (s : State) : Host.Outcome State Fault Refusal :=
  match checkPrintText s.cfg text with
  | .ok => if text = [] then .next (s.complete none) else .next (s.accept (.printText text))
  | e => .next (s.raise e)

end Sys2Proof.Machine
end

