-- ==== Sys2Proof/Machine/Selector.lean ====
section
/-! DEFINITION. The speed-range selector (spec/44_speed_range.md): BUTTON_PRESS, its debounce delay and release wait. -/

namespace Sys2Proof.Machine

/-- The indicator of BUTTON_PRESS: PRINT_TEXT of the unit of the range entered (R261); `speed` is the range after the
advance. -/
def buttonPressEvents (cfg : Config) (speed : Speed) : List Event :=
  printTextEvents cfg speed.unitStr

/-- `BUTTON_PRESS` (R262): SPEED advances at once, then the indicator is written. -/
def execButtonPress (s : State) : Host.Outcome State Fault Refusal :=
  .next (State.accept .buttonPress { s with speed := s.speed.next })

/-- The fixed delay is over: the release wait begins (R262, R263); no event, no read of the button. -/
def State.debounceStep (s : State) : State :=
  { s with seq := .waitRelease 0 }

/-- A poll that reads the button pressed, after `n` such polls (R262, R265). -/
def State.stillPressed (n : Nat) (s : State) : State :=
  match s.cfg.stuckTimeout with
  | some k => if n + 1 ≥ k then s.raise .stuckInput else { s with seq := .waitRelease (n + 1) }
  | none => { s with seq := .waitRelease (n + 1) }

/-- One poll of the release wait (R262, R264): released ends the operation. -/
def State.pollStep (n : Nat) (s : State) : State :=
  if s.drawnButton then s.afterButton.complete none
  else s.afterButton.stillPressed n

end Sys2Proof.Machine
end

