-- ==== Sys2Proof/Machine/Sequencer.lean ====
section
/-! DEFINITION. The sequencer (spec/10_state.md R35, spec/41_protocol.md R168): the fixed event sequence of every
operation, one event a step, and what ends the operation. -/

namespace Sys2Proof.Machine

/-- "its event sequence (the sequence its rule in files 41 to 44 gives)" (R35). `speed` is SPEED while BUSY, the range
entered for BUTTON_PRESS. -/
def opEvents (cfg : Config) (speed : Speed) : Instr → List Event
  | .init => initEvents cfg
  | .powerOff => powerOffEvents cfg
  | .powerOn => powerOnEvents cfg
  | .clear => clearEvents
  | .fill => fillEvents
  | .setDp pos => setDpEvents cfg pos
  | .clearDp => clearDpEvents
  | .printInteger n => printIntegerEvents cfg n
  | .printChar index c => printCharEvents cfg index c
  | .printText text => printTextEvents cfg text
  | .sendCommand cmd => sendCommandEvents cmd
  | .writeRegister addr data => writeRegisterEvents addr.toNat data
  | .lookupGlyph _ => []
  | .lookupDp _ => []
  | .encoderMove _ => encoderMoveEvents
  | .buttonPress => buttonPressEvents cfg speed
  | .reserved _ => []
  | .sendBits v n => sendBitsEvents v n
  | .frameCmd c => frameCmdEvents c.toNat
  | .frameWr a d => frameWrEvents a.toNat d.toNat

/-- "When the last event has been emitted, the operation's RESULT is written and SEQ returns to IDLE" (R35), but for
BUTTON_PRESS, which enters its delay (R262), and ENCODER_MOVE, which commits its movement (R242). -/
def State.finish (op : Instr) (s : State) : State :=
  match op with
  | .encoderMove newPosition => s.commitMove newPosition
  | .buttonPress => { s with seq := .debounce }
  | .init | .powerOff | .powerOn | .clear | .fill | .setDp _ | .clearDp | .printInteger _ | .printChar _ _
  | .printText _ | .sendCommand _ | .writeRegister _ _ | .lookupGlyph _ | .lookupDp _ | .reserved _
  | .sendBits _ _ | .frameCmd _ | .frameWr _ _ => s.complete none

/-- BUSY(op, k): "each step of the sequencer emits the next event" (R35). With no event left (no run reaches it,
log 20) the operation ends. -/
def State.busyStep (op : Instr) (k : Nat) (s : State) : State :=
  let es := opEvents s.cfg s.speed op
  match es[k]? with
  | some e =>
    if k + 1 < es.length then { s.emit e with seq := .busy op (k + 1) }
    else (s.emit e).finish op
  | none => s.finish op

end Sys2Proof.Machine
end

