-- ==== Sys2Proof/Machine/Tables.lean ====
section
/-! DEFINITION. The table operations LOOKUP_GLYPH and LOOKUP_DP (spec/40_tables.md R136, R138). They emit no event and
complete in the acceptance step (spec/10_state.md R35). -/

namespace Sys2Proof.Machine

/-- `LOOKUP_GLYPH c` (R136). -/
def execLookupGlyph (c : Byte) (s : State) : Host.Outcome State Fault Refusal :=
  match charPattern s.cfg c with
  | some p => .next (s.complete (some (.pattern p)))
  | none => .next (s.raise (checkLookupGlyph s.cfg c))

/-- `LOOKUP_DP pos` (R138): never an error; outside 1..9 the return value is none (log 19). -/
def execLookupDp (pos : Int) (s : State) : Host.Outcome State Fault Refusal :=
  match dpEntry s.cfg pos with
  | some (reg, mask) => .next (s.complete (some (.dpEntry reg mask)))
  | none => .next (s.complete none)

end Sys2Proof.Machine
end

