-- ==== Sys2Proof/Machine/Dispatch.lean ====
section
/-! DEFINITION. exec: the acceptance of an operation (spec/10_state.md R35), one arm per row of the opcode table. -/

namespace Sys2Proof.Machine

def exec (i : Instr) (s : State) : Host.Outcome State Fault Refusal :=
  match i with
  | .init => Sys2Proof.Machine.execInit s
  | .powerOff => Sys2Proof.Machine.execPowerOff s
  | .powerOn => Sys2Proof.Machine.execPowerOn s
  | .clear => Sys2Proof.Machine.execClear s
  | .fill => Sys2Proof.Machine.execFill s
  | .setDp pos => Sys2Proof.Machine.execSetDp pos s
  | .clearDp => Sys2Proof.Machine.execClearDp s
  | .printInteger n => Sys2Proof.Machine.execPrintInteger n s
  | .printChar index c => Sys2Proof.Machine.execPrintChar index c s
  | .printText text => Sys2Proof.Machine.execPrintText text s
  | .sendCommand cmd => Sys2Proof.Machine.execSendCommand cmd s
  | .writeRegister addr data => Sys2Proof.Machine.execWriteRegister addr data s
  | .lookupGlyph c => Sys2Proof.Machine.execLookupGlyph c s
  | .lookupDp pos => Sys2Proof.Machine.execLookupDp pos s
  | .encoderMove newPosition => Sys2Proof.Machine.execEncoderMove newPosition s
  | .buttonPress => Sys2Proof.Machine.execButtonPress s
  | .reserved opcode => Sys2Proof.Machine.execReserved opcode s
  | .sendBits v n => Sys2Proof.Machine.execSendBits v n s
  | .frameCmd c => Sys2Proof.Machine.execFrameCmd c s
  | .frameWr a d => Sys2Proof.Machine.execFrameWr a d s

end Sys2Proof.Machine
end

