-- ==== Sys2Proof/Machine/Step.lean ====
section
/-! DEFINITION. One step of the machine (spec/10_state.md R35, spec/60_exceptions.md R290), and where the next
operation is fetched from. -/

namespace Sys2Proof.Machine

/-- One step of the sequencer. IDLE accepts the operation presented, if there is one, and otherwise waits for it
(R290, R311); BUSY emits the next event; the delay and each poll of BUTTON_PRESS are steps of their own. -/
def step (s : State) : Host.Outcome State Fault Refusal :=
  match s.seq with
  | .idle =>
    match s.fetch with
    | some (.ok i, t) => exec i t
    | some (.error e, _) => .refused (.badWord e)
    | none => .next s
  | .busy op k => .next (s.busyStep op k)
  | .debounce => .next s.debounceStep
  | .waitRelease n => .next (s.pollStep n)

/-- `s` waiting for an operation, with `w` the one it takes next. -/
def State.present (w : Word) (s : State) : State :=
  match w with
  | .host h => { s with seq := .idle, issue := none, port := h :: s.port }
  | .internal h => { s with seq := .idle, issue := some h }

/-- `s` with the instruction whose table bits are `w` where the next step fetches it (logs 2, 11, 16). -/
def State.withFetchWord (s : State) (nbits w : Nat) : State :=
  s.present (tableWord nbits w)

end Sys2Proof.Machine
end

