-- ==== Sys2Proof/Safety.lean ====
section
/-! DEFINITION. The terms the claims are stated in: runs, what a trace says of the receiver, and the invariants. -/

namespace Sys2Proof.Machine

/-- `n` steps, stopping at the first fault or refusal. -/
def runSteps : Nat → State → Host.Outcome State Fault Refusal
  | 0, s => .next s
  | n + 1, s =>
    match step s with
    | .next t => runSteps n t
    | .fault f => .fault f
    | .refused r => .refused r

/-- The receiver is between frames and the three lines are idle (10_state.md R33). -/
def State.quiet (s : State) : Prop :=
  s.lines = Lines.idle ∧ s.receiver.frame = none

/-- `u` is `s` after it has emitted `es` and ended with RESULT (OK, none): the lines idle, no frame open, and nothing
else changed but, perhaps, `NIB`. This is the frame of every operation that only drives the lines. -/
def EndsAfter (es : List Event) (s u : State) : Prop :=
  u = { s with
        lines := Lines.idle
        receiver := { frame := none, nib := u.receiver.nib }
        trace := s.trace ++ es
        seq := .idle
        result := { status := .ok, value := none } }

/-- The events of `SEND_BITS v, n` as R160 writes them: "for k from n-1 down to 0" the level `v[k]` on DATA and a pulse
of WR, then DATA to 0. -/
def bitByBit (v n : Nat) : List Event :=
  (List.range n).reverse.flatMap (fun k => [.setLine .data (v.testBit k), .setLine .wr true, .setLine .wr false])
    ++ [.setLine .data false]

/-- The low `n` bits of `v` as the receiver samples them, most significant first (R74). -/
def lowBits (v n : Nat) : List Bool :=
  (List.range n).reverse.map fun k => v.testBit k

/-- The events of a command frame as R162 writes them. -/
def commandFrame (cmd : Byte) : List Event :=
  [.setLine .cs false] ++ bitByBit 0b1000 4 ++ bitByBit cmd.toNat 8 ++ [.setLine .cs true]

/-- The events of WRITE_REGISTER as R163 writes them: for i from 0 to 4, one frame with the address `4·addr + i` and the
payload `(data << 4i) >> 12`. -/
def registerWrite (addr : Nat) (data : Half) : List Event :=
  (List.range 5).flatMap fun i =>
    [.setLine .cs false] ++ bitByBit 0b101 3 ++ bitByBit (4 * addr + i) 6
      ++ bitByBit ((data.toNat <<< (4 * i)) >>> 12) 4 ++ [.setLine .cs true]

/-- The bits of the chip-select brackets that close in a list of events, oldest first (20_memory.md R71), read from the
events alone: `data` is the level of DATA before them and `frame` the bits of the bracket that is open, if one is. -/
def closedFrames (data : Bool) (frame : Option (List Bool)) : List Event → List (List Bool)
  | [] => []
  | .setLine .data v :: es => closedFrames v frame es
  | .setLine .wr true :: es => closedFrames data (frame.map fun bits => bits ++ [data]) es
  | .setLine .wr false :: es => closedFrames data frame es
  | .setLine .cs false :: es => closedFrames data (some []) es
  | .setLine .cs true :: es =>
    match frame with
    | some bits => bits :: closedFrames data none es
    | none => closedFrames data none es
  | .counterReset :: es => closedFrames data frame es

/-- The frames that close in a whole trace, which starts with the lines idle (10_state.md R44). -/
def framesOf (trace : List Event) : List (List Bool) :=
  closedFrames false none trace

/-- "the payload of the last closed write frame to address a …, or its power-up value if there is none" (R83): the
payload in a list of closed frames, none when no write frame has address `a`. -/
def lastWrite (a : Nat) (frames : List (List Bool)) : Option Nibble :=
  frames.foldl
    (fun acc bits =>
      match decodeWire bits with
      | .ok (.frameWr b d) => if b.toNat = a then some d else acc
      | .ok _ => acc
      | .error _ => acc)
    none

/-- `line[l]` after a trace that starts from the reset levels: the last level set (00_scope.md R12, R31, R44). -/
def linesAfter (trace : List Event) : Lines :=
  trace.foldl
    (fun ls e =>
      match e with
      | .setLine l v => ls.set l v
      | .counterReset => ls)
    Lines.idle

/-- WR rises only while CS is low (41_protocol.md R166); `cs` is the level of CS before the events. -/
def wrOnlyInBracket (cs : Bool) : List Event → Bool
  | [] => true
  | .setLine .cs v :: es => wrOnlyInBracket v es
  | .setLine .wr true :: es => !cs && wrOnlyInBracket cs es
  | .setLine .wr false :: es => wrOnlyInBracket cs es
  | .setLine .data _ :: es => wrOnlyInBracket cs es
  | .counterReset :: es => wrOnlyInBracket cs es

/-- What SEQ says of the wire: quiet when no event sequence is in progress (R33, R35), and in BUSY(op, k) an event is
left and the lines and the open frame are what the first `k` events of the sequence leave, from quiet. -/
def State.seqAgrees (s : State) : Prop :=
  match s.seq with
  | .idle => s.quiet
  | .debounce => s.quiet
  | .waitRelease _ => s.quiet
  | .busy op k =>
    k < (opEvents s.cfg s.speed op).length ∧
    s.lines = (State.emitAll ((opEvents s.cfg s.speed op).take k) (State.powerUp s.cfg)).lines ∧
    s.receiver.frame =
      (State.emitAll ((opEvents s.cfg s.speed op).take k) (State.powerUp s.cfg)).receiver.frame

/-- The invariant of the machine: the display memory is in canonical form, VALUE is not negative (R40), and the wire
agrees with SEQ (R33). -/
def State.Inv (s : State) : Prop :=
  Memory.wf s.receiver.nib = true ∧ 0 ≤ s.value ∧ s.seqAgrees

/-- The state of the lines and of the receiver is what the trace says (R71, R83): the latches hold the last levels set,
the frames closed in the trace have written `NIB`, and appending events continues the same frame. -/
def State.traceExplains (s : State) : Prop :=
  s.lines = linesAfter s.trace ∧
  (∀ a, Nib.read a s.receiver.nib = lastWrite a (framesOf s.trace)) ∧
  (∀ es, framesOf (s.trace ++ es) = framesOf s.trace ++ closedFrames s.lines.data s.receiver.frame es)

/-- With `VALUE_WIDTH` = W set, LAST_POS and VALUE fit W bits, and the ENCODER_MOVE in progress has passed its check
(R241). -/
def State.widthHolds (w : Nat) (s : State) : Prop :=
  s.cfg.valueWidth = some w ∧ fitsWidth w s.lastPos = true ∧ fitsWidth w s.value = true ∧
  (∀ p k, s.seq = .busy (.encoderMove p) k → checkEncoderMove p s.rotspeed s = .ok)

end Sys2Proof.Machine
end

