-- ==== Sys2Proof/Certificates/Slice0/Obligations.lean ====
section
/-! DEFINITION. The statements for the provers. Each says which rule of spec/ it formalises, or what it rests on. Every
operation runs in the sequencer's steps (spec/10_state.md R35): exec accepts it, and `runSteps` counts the events. -/

open Sys2Proof Sys2Proof.Machine

/-! ### Encoding -/

/-- Words written out from the opcode map (R104) and the frame layouts (R101, R102) decode to what they stand for. -/
def Obligations.WrittenOutWordsDecode : Prop :=
  decode (.host { opcode := 0x01, operands := [] }) = .ok .init ∧
  decode (.host { opcode := 0x08, operands := [.int 1234] }) = .ok (.printInteger 1234) ∧
  decode (.host { opcode := 0x11, operands := [.nibble 3, .half 0xABCD] }) = .ok (.writeRegister 3 0xABCD) ∧
  decode (.host { opcode := 0x20, operands := [.byte 0x41] }) = .ok (.lookupGlyph 0x41) ∧
  decode (.host { opcode := 0x30, operands := [.int (-5)] }) = .ok (.encoderMove (-5)) ∧
  decode (.internal (.wire [true, false, false, false, false, false, false, false, false, false, false, true])) =
    .ok (.frameCmd 0x01) ∧
  decode (.internal (.wire [true, false, true, false, false, true, true, false, false, true, false, true, false])) =
    .ok (.frameWr 12 0xA)

/-- Decoding an encoded well-formed instruction gives it back, with every operand at every value. -/
def Obligations.EncodeThenDecode : Prop :=
  ∀ i : Instr, i.wf = true → decode (encode i) = .ok i

/-- Every word that decodes to an instruction of an assigned row is that instruction's own word: each word has one
meaning, and no bit or operand of it is dropped. -/
def Obligations.DecodeThenEncode : Prop :=
  ∀ (w : Word) (i : Instr), decode w = .ok i → (∀ opcode, i ≠ .reserved opcode) → encode i = w

/-- Whatever the decoder reads is well formed. -/
def Obligations.DecodedIsWellFormed : Prop :=
  ∀ (w : Word) (i : Instr), decode w = .ok i → i.wf = true

/-- R109: an opcode outside the map is accepted, emits nothing, changes nothing but RESULT, and ends with
IllegalOperation, whatever its operands. -/
def Obligations.UnassignedOpcodeIsIllegal : Prop :=
  ∀ (s : State) (w : HostWord) (rest : List HostWord),
    w.opcode ∉ ([0x01, 0x02, 0x03, 0x04, 0x05, 0x06, 0x07, 0x08, 0x09, 0x0A, 0x10, 0x11, 0x20, 0x21, 0x30, 0x31] :
      List Byte) →
    s.seq = .idle → s.issue = none → s.port = w :: rest →
    decode (.host w) = .ok (.reserved w.opcode) ∧
    exec (.reserved w.opcode) { s with port := rest } =
      .next { s with port := rest, result := { status := .illegalOperation, value := none } } ∧
    step s = .next { s with port := rest, result := { status := .illegalOperation, value := none } }

/-! ### Steps -/

/-- When IDLE a step takes the operation the host presents and is exec of it (R35, R290); with nothing presented it waits
(R311). The model's own choices, which no rule states: that the port is a list, and that waiting answers the same state
(log 2, DESIGN CHOICE); that a word in the issue latch is taken, and before the port (log 11, DESIGN CHOICE); that a host
word with operands of other types (log 10, DESIGN CHOICE), and a word in the latch that is no frame or has another bit
count (log 11), is refused with badWord. -/
def Obligations.StepRunsDecodedOperation : Prop :=
  ∀ s : State, s.seq = .idle →
    (∀ w rest i, s.issue = none → s.port = w :: rest → decode (.host w) = .ok i →
      step s = exec i { s with port := rest }) ∧
    (∀ w i, s.issue = some w → decode (.internal w) = .ok i → step s = exec i { s with issue := none }) ∧
    (∀ w rest e, s.issue = none → s.port = w :: rest → decode (.host w) = .error e →
      step s = .refused (.badWord e)) ∧
    (∀ w e, s.issue = some w → decode (.internal w) = .error e → step s = .refused (.badWord e)) ∧
    (s.issue = none → s.port = [] → step s = .next s)

/-- No step faults (log 18, DEDUCED), and a step is refused only for a word that is no operation word; in every other
state, busy or waiting, the machine goes on. Which words are refused is the model's choice (logs 10 and 11, DESIGN
CHOICE). -/
def Obligations.OnlyBadWordsStop : Prop :=
  ∀ s : State,
    (∃ t, step s = .next t) ∨
    (∃ e, step s = .refused (.badWord e) ∧ s.seq = .idle ∧
      ((∃ w, s.issue = some w ∧ decode (.internal w) = .error e) ∨
       (∃ w rest, s.issue = none ∧ s.port = w :: rest ∧ decode (.host w) = .error e)))

/-- While an operation is in progress the port is held (R290): a step neither changes nor reads what the host presents.
That the port is a list is the model's form of it (log 2, DESIGN CHOICE). -/
def Obligations.PortHeldWhileBusy : Prop :=
  ∀ (s : State) (port : List HostWord), s.seq ≠ .idle →
    ∃ t, step s = .next t ∧ t.port = s.port ∧ step { s with port := port } = .next { t with port := port }

/-- Each step emits at most one event, and only as the next event of the operation in BUSY. -/
def Obligations.OneEventPerStep : Prop :=
  ∀ s t : State, step s = .next t →
    t.trace = s.trace ∨
    ∃ op k e, s.seq = .busy op k ∧ (opEvents s.cfg s.speed op)[k]? = some e ∧ t.trace = s.trace ++ [e]

/-- Which steps write which state: the configuration never changes; LAST_POS and VALUE only in ENCODER_MOVE; SPEED only
when BUTTON_PRESS is accepted; the lines only in BUSY; NIB only when CS rises; RESULT only when an operation ends. That an
ENCODER_MOVE writes LAST_POS and VALUE in its step from BUSY, with its event, and never in its acceptance step is the
model's reading (log 7, DEDUCED), not the words of R39, R40 or R242, whose pseudocode writes LAST_POS before the event. -/
def Obligations.WritersOfState : Prop :=
  ∀ s t : State, step s = .next t →
    t.cfg = s.cfg ∧
    (t.lastPos ≠ s.lastPos ∨ t.value ≠ s.value → ∃ p k, s.seq = .busy (.encoderMove p) k) ∧
    (t.speed ≠ s.speed → s.seq = .idle ∧ t.seq = .busy .buttonPress 0 ∧ t.speed = s.speed.next) ∧
    (t.lines ≠ s.lines → ∃ op k, s.seq = .busy op k) ∧
    (t.receiver.nib ≠ s.receiver.nib →
      (∃ op k, s.seq = .busy op k) ∧ t.trace = s.trace ++ [.setLine .cs true]) ∧
    (t.result ≠ s.result → t.seq = .idle)

/-- An operation that a check rejects has emitted nothing and changed nothing but RESULT (R281, R284). Of every
operation, accepted ones too, it is said that exec does not touch the lines, the receiver, the trace, VALUE and LAST_POS:
that an acceptance emits nothing is the model's split into steps (log 1, DEDUCED), and that an accepted ENCODER_MOVE has
not yet written VALUE and LAST_POS is the model's reading (log 7, DEDUCED). The model's own supply of draws advances when
ENCODER_MOVE has sampled the pulse count (log 21, DEDUCED). -/
def Obligations.RejectionIsPrecise : Prop :=
  ∀ (i : Instr) (s : State), ∃ t, exec i s = .next t ∧
    t.lines = s.lines ∧ t.receiver = s.receiver ∧ t.trace = s.trace ∧ t.value = s.value ∧ t.lastPos = s.lastPos ∧
    (t.seq = .idle → t.result.status ≠ .ok →
      t.result.value = none ∧
      t = { s with seq := .idle, result := t.result, pulses := t.pulses, draws := t.draws } ∧
      ((∀ p, i ≠ .encoderMove p) → t.pulses = s.pulses ∧ t.draws = s.draws))

/-! ### Tables -/

/-- R136: LOOKUP_GLYPH returns 0x0000 for the space, the ROM entry for '*'..'9' and 'A'..'Z', and ends with
UnsupportedCharacter for every other code; RESULT only, no event. -/
def Obligations.LookupGlyphResult : Prop :=
  ∀ (c : Byte) (s : State),
    decode (.host { opcode := 0x20, operands := [.byte c] }) = .ok (.lookupGlyph c) ∧
    (c = 0x20 → exec (.lookupGlyph c) s =
      .next { s with seq := .idle, result := { status := .ok, value := some (.pattern 0x0000) } }) ∧
    (∀ (_ : 0x2A ≤ c.toNat ∧ c.toNat ≤ 0x39), exec (.lookupGlyph c) s =
      .next { s with seq := .idle, result := { status := .ok, value := some (.pattern s.cfg.glyph[c.toNat - 0x2A]) } }) ∧
    (∀ (_ : 0x41 ≤ c.toNat ∧ c.toNat ≤ 0x5A), exec (.lookupGlyph c) s =
      .next { s with
        seq := .idle, result := { status := .ok, value := some (.pattern s.cfg.glyph[c.toNat - 0x41 + 16]) } }) ∧
    (c ≠ 0x20 → ¬ (0x2A ≤ c.toNat ∧ c.toNat ≤ 0x39) → ¬ (0x41 ≤ c.toNat ∧ c.toNat ≤ 0x5A) →
      exec (.lookupGlyph c) s =
        .next { s with seq := .idle, result := { status := .unsupportedCharacter, value := none } })

/-- R138, R137: LOOKUP_DP returns (11, DP_MASK[p]) for 1..3, (10, DP_MASK[p]) for 4..9, and none otherwise; RESULT only,
no event, never an error. `DP_MASK[p]` is entry `p - 1` of the configuration. -/
def Obligations.LookupDpResult : Prop :=
  ∀ (pos : Int) (s : State),
    decode (.host { opcode := 0x21, operands := [.int pos] }) = .ok (.lookupDp pos) ∧
    (∀ p : Fin 9, pos = p.val + 1 → pos ≤ 3 → exec (.lookupDp pos) s =
      .next { s with seq := .idle, result := { status := .ok, value := some (.dpEntry 11 s.cfg.dpMask[p]) } }) ∧
    (∀ p : Fin 9, pos = p.val + 1 → 4 ≤ pos → exec (.lookupDp pos) s =
      .next { s with seq := .idle, result := { status := .ok, value := some (.dpEntry 10 s.cfg.dpMask[p]) } }) ∧
    (pos < 1 ∨ 9 < pos → exec (.lookupDp pos) s =
      .next { s with seq := .idle, result := { status := .ok, value := none } })

/-! ### Protocol engine -/

/-- R160: SEND_BITS emits exactly 3n + 1 events, the level of each bit and a pulse of WR, most significant bit first, then
DATA ← 0; DATA and WR end low, CS and NIB are not touched. That SEND_BITS on its own ends with RESULT (OK, none) is the
model's choice (log 11). -/
def Obligations.SendBitsEmitsBits : Prop :=
  ∀ (v n : Nat) (s : State), n ∈ [3, 4, 6, 8] →
    exec (.sendBits v n) s = .next { s with seq := .busy (.sendBits v n) 0 } ∧
    (bitByBit v n).length = 3 * n + 1 ∧
    runSteps (3 * n + 1) { s with seq := .busy (.sendBits v n) 0 } =
      .next { s with
        lines := { data := false, wr := false, cs := s.lines.cs }
        receiver := { frame := s.receiver.frame.map fun bits => bits ++ lowBits v n, nib := s.receiver.nib }
        trace := s.trace ++ bitByBit v n
        seq := .idle
        result := { status := .ok, value := none } }

/-- R162: SEND_COMMAND emits one command frame of 40 events, from which the receiver samples the 12 bits 1000 and the
command, most significant first; every command is sent and NIB is not changed. -/
def Obligations.SendCommandEmitsFrame : Prop :=
  ∀ (cmd : Byte) (s : State),
    decode (.host { opcode := 0x10, operands := [.byte cmd] }) = .ok (.sendCommand cmd) ∧
    exec (.sendCommand cmd) s = .next { s with seq := .busy (.sendCommand cmd) 0 } ∧
    (∃ u, runSteps 40 { s with seq := .busy (.sendCommand cmd) 0 } = .next u ∧
      EndsAfter (commandFrame cmd) s u ∧ u.receiver.nib = s.receiver.nib) ∧
    (commandFrame cmd).length = 40 ∧
    closedFrames s.lines.data s.receiver.frame (commandFrame cmd) =
      [[true, false, false, false] ++ lowBits cmd.toNat 8]

/-- The wire rows: FRAME_CMD puts its frame on the wire and leaves NIB, FRAME_WR puts its frame on the wire and
`NIB[a] <- d`, each in its own chip-select bracket. That a row runs on its own, and its RESULT, is the model's choice
(logs 11 and 12, DESIGN CHOICE), and so is that a frame to a cell from 49 to 63, which no host operation addresses
(R110), is stored like any other (log 9, DEDUCED). -/
def Obligations.WireFramesAlone : Prop :=
  ∀ (c : Byte) (a : Addr6) (d : Nibble) (s : State),
    exec (.frameCmd c) s = .next { s with seq := .busy (.frameCmd c) 0 } ∧
    (∃ u, runSteps 40 { s with seq := .busy (.frameCmd c) 0 } = .next u ∧ EndsAfter (commandFrame c) s u ∧
      u.receiver.nib = s.receiver.nib) ∧
    exec (.frameWr a d) s = .next { s with seq := .busy (.frameWr a d) 0 } ∧
    (∃ u, runSteps 44 { s with seq := .busy (.frameWr a d) 0 } = .next u ∧
      EndsAfter ([.setLine .cs false] ++ bitByBit 0b101 3 ++ bitByBit a.toNat 6 ++ bitByBit d.toNat 4
        ++ [.setLine .cs true]) s u ∧
      Nib.read a.toNat u.receiver.nib = some d ∧
      ∀ b, b ≠ a.toNat → Nib.read b u.receiver.nib = Nib.read b s.receiver.nib)

/-- R163, R164: WRITE_REGISTER with addr ≤ 11 emits five write frames in 220 events, writes `nib_0 .. nib_3` and then 0 to
the cells `4·addr .. 4·addr + 4`, so that `REG[addr] = data`, bits [15:12] of the next register are 0 and its bits [11:0]
are kept, and no other cell changes. -/
def Obligations.WriteRegisterEmitsFiveFrames : Prop :=
  ∀ (addr : Nibble) (data : Half) (s : State),
    decode (.host { opcode := 0x11, operands := [.nibble addr, .half data] }) = .ok (.writeRegister addr data) ∧
    (addr.toNat ≤ 11 →
      exec (.writeRegister addr data) s = .next { s with seq := .busy (.writeRegister addr data) 0 } ∧
      (registerWrite addr.toNat data).length = 220 ∧
      closedFrames s.lines.data s.receiver.frame (registerWrite addr.toNat data) =
        [[true, false, true] ++ lowBits (4 * addr.toNat) 6 ++ lowBits (data.extractLsb' 12 4).toNat 4,
         [true, false, true] ++ lowBits (4 * addr.toNat + 1) 6 ++ lowBits (data.extractLsb' 8 4).toNat 4,
         [true, false, true] ++ lowBits (4 * addr.toNat + 2) 6 ++ lowBits (data.extractLsb' 4 4).toNat 4,
         [true, false, true] ++ lowBits (4 * addr.toNat + 3) 6 ++ lowBits (data.extractLsb' 0 4).toNat 4,
         [true, false, true] ++ lowBits (4 * addr.toNat + 4) 6 ++ [false, false, false, false]] ∧
      ∃ u, runSteps 220 { s with seq := .busy (.writeRegister addr data) 0 } = .next u ∧
        EndsAfter (registerWrite addr.toNat data) s u ∧
        Nib.read (4 * addr.toNat) u.receiver.nib = some (data.extractLsb' 12 4) ∧
        Nib.read (4 * addr.toNat + 1) u.receiver.nib = some (data.extractLsb' 8 4) ∧
        Nib.read (4 * addr.toNat + 2) u.receiver.nib = some (data.extractLsb' 4 4) ∧
        Nib.read (4 * addr.toNat + 3) u.receiver.nib = some (data.extractLsb' 0 4) ∧
        Nib.read (4 * addr.toNat + 4) u.receiver.nib = some 0 ∧
        (∀ a, a < 4 * addr.toNat ∨ 4 * addr.toNat + 4 < a →
          Nib.read a u.receiver.nib = Nib.read a s.receiver.nib) ∧
        u.receiver.nib.reg addr.toNat = data ∧
        (addr.toNat ≤ 10 → u.receiver.nib.reg (addr.toNat + 1) =
          (0 : Nibble) ++ (s.receiver.nib.reg (addr.toNat + 1)).extractLsb' 0 12)) ∧
    (addr.toNat > 11 →
      exec (.writeRegister addr data) s =
        .next { s with seq := .idle, result := { status := .operandRange, value := none } })

/-- A register write is not atomic: after k of its five frames the receiver holds the first k nibbles new and the rest
old. -/
def Obligations.RegisterWriteIsNotAtomic : Prop :=
  ∀ (addr : Nibble) (data : Half) (s : State) (k : Nat), addr.toNat ≤ 11 → k ≤ 5 →
    ∃ u, runSteps (44 * k) { s with seq := .busy (.writeRegister addr data) 0 } = .next u ∧
      (∀ i, i < k → Nib.read (4 * addr.toNat + i) u.receiver.nib =
        some (BitVec.ofNat 4 ((data.toNat <<< (4 * i)) >>> 12))) ∧
      (∀ a, a < 4 * addr.toNat ∨ 4 * addr.toNat + k ≤ a → Nib.read a u.receiver.nib = Nib.read a s.receiver.nib)

/-- The order of two neighbouring register writes matters: written after register r, register r + 1 is intact; written
before it, register r + 1 loses its bits [15:12] to the fifth sub-write. Either way register r holds its own data. -/
def Obligations.SpillDependsOnOrder : Prop :=
  ∀ (lower upper : Nibble) (d e : Half) (s : State), lower.toNat ≤ 10 → upper.toNat = lower.toNat + 1 →
    (∃ u v, runSteps 220 { s with seq := .busy (.writeRegister lower d) 0 } = .next u ∧
      runSteps 220 { u with seq := .busy (.writeRegister upper e) 0 } = .next v ∧
      v.receiver.nib.reg lower.toNat = d ∧ v.receiver.nib.reg upper.toNat = e) ∧
    (∃ u v, runSteps 220 { s with seq := .busy (.writeRegister upper e) 0 } = .next u ∧
      runSteps 220 { u with seq := .busy (.writeRegister lower d) 0 } = .next v ∧
      v.receiver.nib.reg lower.toNat = d ∧ v.receiver.nib.reg upper.toNat = (0 : Nibble) ++ e.extractLsb' 0 12)

/-- Emitting the same write frame twice leaves NIB as emitting it once (R79). The frame is emitted as FRAME_WR run as an
operation on its own, which no host can issue: the model's choice (logs 11 and 12, DESIGN CHOICE); for a cell from 49 to
63 it also rests on log 9 (DEDUCED). -/
def Obligations.WriteFrameIsIdempotent : Prop :=
  ∀ (a : Addr6) (d : Nibble) (s : State),
    ∃ u v, runSteps 44 { s with seq := .busy (.frameWr a d) 0 } = .next u ∧
      runSteps 44 { u with seq := .busy (.frameWr a d) 0 } = .next v ∧
      v.receiver.nib = u.receiver.nib

/-- The frame discipline of every operation a host can have accepted: no WR pulse outside a chip-select bracket, and every
bracket holds exactly one command frame or one write frame, whose address is at most 48. -/
def Obligations.FrameDiscipline : Prop :=
  ∀ (i : Instr) (s t : State) (k : Nat), i.format = .host → exec i s = .next t → t.seq = .busy i k →
    wrOnlyInBracket true (opEvents t.cfg t.speed i) = true ∧
    ∀ bits ∈ closedFrames false none (opEvents t.cfg t.speed i),
      (∃ c : Byte, bits = [true, false, false, false] ++ lowBits c.toNat 8) ∨
      (∃ (a : Addr6) (d : Nibble), a.toNat ≤ 48 ∧
        bits = [true, false, true] ++ lowBits a.toNat 6 ++ lowBits d.toNat 4)

/-! ### Display operations -/

/-- R190, R191, R192: INIT sends system-enable, clock select and display-on in this order, POWER_OFF display-off, POWER_ON
display-on; NIB is not changed. -/
def Obligations.ReceiverModeOperations : Prop :=
  ∀ s : State,
    decode (.host { opcode := 0x01, operands := [] }) = .ok .init ∧
    decode (.host { opcode := 0x02, operands := [] }) = .ok .powerOff ∧
    decode (.host { opcode := 0x03, operands := [] }) = .ok .powerOn ∧
    exec .init s = .next { s with seq := .busy .init 0 } ∧
    (∃ u, runSteps 120 { s with seq := .busy .init 0 } = .next u ∧
      EndsAfter (commandFrame s.cfg.cmdSysEn ++ commandFrame s.cfg.cmdClk32k ++ commandFrame s.cfg.cmdDispOn) s u ∧
      u.receiver.nib = s.receiver.nib) ∧
    exec .powerOff s = .next { s with seq := .busy .powerOff 0 } ∧
    (∃ u, runSteps 40 { s with seq := .busy .powerOff 0 } = .next u ∧
      EndsAfter (commandFrame s.cfg.cmdDispOff) s u ∧ u.receiver.nib = s.receiver.nib) ∧
    exec .powerOn s = .next { s with seq := .busy .powerOn 0 } ∧
    (∃ u, runSteps 40 { s with seq := .busy .powerOn 0 } = .next u ∧
      EndsAfter (commandFrame s.cfg.cmdDispOn) s u ∧ u.receiver.nib = s.receiver.nib)

/-- R193: CLEAR writes 0x0000 to registers 0 to 11 in ascending order, in 2640 events: afterwards every register and
address 48 is 0, and no cell above 48 changes. -/
def Obligations.ClearZeroesEveryRegister : Prop :=
  ∀ s : State,
    decode (.host { opcode := 0x04, operands := [] }) = .ok .clear ∧
    exec .clear s = .next { s with seq := .busy .clear 0 } ∧
    ∃ u, runSteps 2640 { s with seq := .busy .clear 0 } = .next u ∧
      EndsAfter ((List.range 12).flatMap fun r => registerWrite r 0x0000) s u ∧
      (∀ r, r ≤ 11 → u.receiver.nib.reg r = 0x0000) ∧
      Nib.read 48 u.receiver.nib = some 0 ∧
      (∀ a, 48 < a → Nib.read a u.receiver.nib = Nib.read a s.receiver.nib)

/-- R194: FILL writes 0xFFFF to registers 0 to 11 in ascending order, in 2640 events: afterwards every register is 0xFFFF
and address 48 is 0, and no cell above 48 changes. -/
def Obligations.FillSetsEveryRegister : Prop :=
  ∀ s : State,
    decode (.host { opcode := 0x05, operands := [] }) = .ok .fill ∧
    exec .fill s = .next { s with seq := .busy .fill 0 } ∧
    ∃ u, runSteps 2640 { s with seq := .busy .fill 0 } = .next u ∧
      EndsAfter ((List.range 12).flatMap fun r => registerWrite r 0xFFFF) s u ∧
      (∀ r, r ≤ 11 → u.receiver.nib.reg r = 0xFFFF) ∧
      Nib.read 48 u.receiver.nib = some 0 ∧
      (∀ a, 48 < a → Nib.read a u.receiver.nib = Nib.read a s.receiver.nib)

/-- R195: SET_DP overwrites the whole DP register of its position with the mask, in 220 events, and its fifth sub-write
zeroes the next cell; outside 1..9 it emits nothing and ends OK. -/
def Obligations.SetDpOverwritesRegister : Prop :=
  ∀ (pos : Int) (s : State),
    decode (.host { opcode := 0x06, operands := [.int pos] }) = .ok (.setDp pos) ∧
    (∀ p : Fin 9, pos = p.val + 1 →
      exec (.setDp pos) s = .next { s with seq := .busy (.setDp pos) 0 } ∧
      ∃ reg u, reg = (if pos ≤ 3 then 11 else 10) ∧
        runSteps 220 { s with seq := .busy (.setDp pos) 0 } = .next u ∧
        EndsAfter (registerWrite reg s.cfg.dpMask[p]) s u ∧
        u.receiver.nib.reg reg = s.cfg.dpMask[p] ∧
        Nib.read (4 * reg + 4) u.receiver.nib = some 0 ∧
        (∀ a, a < 4 * reg ∨ 4 * reg + 4 < a → Nib.read a u.receiver.nib = Nib.read a s.receiver.nib)) ∧
    (pos < 1 ∨ 9 < pos →
      exec (.setDp pos) s = .next { s with seq := .idle, result := { status := .ok, value := none } })

/-- R196: CLEAR_DP writes 0x0000 to register 10 and then to register 11, in 440 events. -/
def Obligations.ClearDpZeroesBothRegisters : Prop :=
  ∀ s : State,
    decode (.host { opcode := 0x07, operands := [] }) = .ok .clearDp ∧
    exec .clearDp s = .next { s with seq := .busy .clearDp 0 } ∧
    ∃ u, runSteps 440 { s with seq := .busy .clearDp 0 } = .next u ∧
      EndsAfter (registerWrite 10 0x0000 ++ registerWrite 11 0x0000) s u ∧
      u.receiver.nib.reg 10 = 0x0000 ∧ u.receiver.nib.reg 11 = 0x0000 ∧ Nib.read 48 u.receiver.nib = some 0 ∧
      (∀ a, a < 40 ∨ 48 < a → Nib.read a u.receiver.nib = Nib.read a s.receiver.nib)

/-- R198: str10 is the shortest decimal text: digit characters only, of value n, without a leading zero but for "0", of
length 1 for n ≤ 9 and floor(log10 n) + 1 for n ≥ 1; no other digit string of value n is shorter. -/
def Obligations.DecimalTextIsShortest : Prop :=
  ∀ n : Nat,
    (∀ c ∈ str10 n, 0x30 ≤ c.toNat ∧ c.toNat ≤ 0x39) ∧
    (str10 n).foldl (fun acc c => 10 * acc + (c.toNat - 0x30)) 0 = n ∧
    str10 0 = [0x30] ∧
    (1 ≤ n → (str10 n).head? ≠ some 0x30 ∧ (str10 n).length = Nat.log 10 n + 1) ∧
    (n ≤ 9 → (str10 n).length = 1) ∧
    (∀ t : List Byte, t ≠ [] → (∀ c ∈ t, 0x30 ≤ c.toNat ∧ c.toNat ≤ 0x39) →
      t.foldl (fun acc c => 10 * acc + (c.toNat - 0x30)) 0 = n → (str10 n).length ≤ t.length)

/-- R199: PRINT_INTEGER of 0 ≤ n ≤ 9,999,999,999 clears the display and writes the glyph of the k-th decimal digit,
counting from the least significant, to register k; the registers above the digits are 0x0000. -/
def Obligations.PrintIntegerWritesDigits : Prop :=
  ∀ (n : Int) (s : State),
    decode (.host { opcode := 0x08, operands := [.int n] }) = .ok (.printInteger n) ∧
    (0 ≤ n → n ≤ 9999999999 →
      exec (.printInteger n) s = .next { s with seq := .busy (.printInteger n) 0 } ∧
      ∃ len ps u, len = (str10 n.toNat).length ∧ List.length ps = len ∧
        (∀ k, k < len → ps[k]? = s.cfg.glyph[6 + n.toNat / 10 ^ k % 10]?) ∧
        runSteps (2640 + 220 * len) { s with seq := .busy (.printInteger n) 0 } = .next u ∧
        EndsAfter (((List.range 12).flatMap fun r => registerWrite r 0x0000) ++
          (List.range len).flatMap fun k => registerWrite k (ps.getD k 0)) s u ∧
        (∀ k, k < len → s.cfg.glyph[6 + n.toNat / 10 ^ k % 10]? = some (u.receiver.nib.reg k)) ∧
        (∀ k, len ≤ k → k ≤ 11 → u.receiver.nib.reg k = 0x0000) ∧
        Nib.read 48 u.receiver.nib = some 0 ∧
        (∀ a, 48 < a → Nib.read a u.receiver.nib = Nib.read a s.receiver.nib)) ∧
    (n < 0 → exec (.printInteger n) s =
      .next { s with seq := .idle, result := { status := .unsupportedCharacter, value := none } }) ∧
    (n > 9999999999 → exec (.printInteger n) s =
      .next { s with seq := .idle, result := { status := .displayOverflow, value := none } })

/-- R200: PRINT_CHAR writes one pattern to one digit register and its fifth sub-write zeroes the next cell; an index
outside 0..9 is DisplayOverflow and, the index being good, a character outside the alphabet UnsupportedCharacter, both
with no event. -/
def Obligations.PrintCharWritesOneRegister : Prop :=
  ∀ (index : Int) (c : Byte) (s : State),
    decode (.host { opcode := 0x09, operands := [.int index, .byte c] }) = .ok (.printChar index c) ∧
    (∀ p, 0 ≤ index → index ≤ 9 → charPattern s.cfg c = some p →
      exec (.printChar index c) s = .next { s with seq := .busy (.printChar index c) 0 } ∧
      ∃ u, runSteps 220 { s with seq := .busy (.printChar index c) 0 } = .next u ∧
        EndsAfter (registerWrite index.toNat p) s u ∧
        u.receiver.nib.reg index.toNat = p ∧
        Nib.read (4 * index.toNat + 4) u.receiver.nib = some 0 ∧
        (∀ a, a < 4 * index.toNat ∨ 4 * index.toNat + 4 < a →
          Nib.read a u.receiver.nib = Nib.read a s.receiver.nib)) ∧
    (index < 0 ∨ 9 < index → exec (.printChar index c) s =
      .next { s with seq := .idle, result := { status := .displayOverflow, value := none } }) ∧
    (0 ≤ index → index ≤ 9 → charPattern s.cfg c = none → exec (.printChar index c) s =
      .next { s with seq := .idle, result := { status := .unsupportedCharacter, value := none } })

/-- R201: PRINT_TEXT writes the patterns of its characters left to right into registers `10 - len(s) .. 9`, and zeroes cell
40; more than ten characters is DisplayOverflow whatever they are, else any character outside the alphabet is
UnsupportedCharacter, both with no event; the empty string writes nothing and ends OK. -/
def Obligations.PrintTextRightAligns : Prop :=
  ∀ (text : List Byte) (s : State),
    decode (.host { opcode := 0x0A, operands := [.text text] }) = .ok (.printText text) ∧
    (∀ ps : List Half, 1 ≤ text.length → text.length ≤ 10 → text.map (charPattern s.cfg) = ps.map some →
      exec (.printText text) s = .next { s with seq := .busy (.printText text) 0 } ∧
      ∃ u, runSteps (220 * text.length) { s with seq := .busy (.printText text) 0 } = .next u ∧
        EndsAfter ((List.range text.length).flatMap fun j => registerWrite (10 - text.length + j) (ps.getD j 0)) s u ∧
        (∀ j, j < text.length → ps[j]? = some (u.receiver.nib.reg (10 - text.length + j))) ∧
        Nib.read 40 u.receiver.nib = some 0 ∧
        (∀ a, a < 4 * (10 - text.length) ∨ 40 < a → Nib.read a u.receiver.nib = Nib.read a s.receiver.nib)) ∧
    (text = [] → exec (.printText text) s =
      .next { s with seq := .idle, result := { status := .ok, value := none } }) ∧
    (text.length > 10 → exec (.printText text) s =
      .next { s with seq := .idle, result := { status := .displayOverflow, value := none } }) ∧
    (text.length ≤ 10 → (∃ c ∈ text, charPattern s.cfg c = none) → exec (.printText text) s =
      .next { s with seq := .idle, result := { status := .unsupportedCharacter, value := none } })

/-! ### Rotary quantizer -/

/-- R240: the acceleration map, its reference thresholds and multipliers, and that it is monotone non-decreasing. -/
def Obligations.AccelerationMap : Prop :=
  (∀ (a : Accel) (r : Nat),
    (r ≤ a.t1 → accel a r = a.m0) ∧
    (a.t1 < r → r ≤ a.t2 → accel a r = a.m1) ∧
    (a.t1 < r → a.t2 < r → r ≤ a.t3 → accel a r = a.m2) ∧
    (a.t1 < r → a.t2 < r → a.t3 < r → accel a r = a.m3)) ∧
  (∀ r, r ≤ 8 → accel Accel.reference r = 1) ∧
  (∀ r, 9 ≤ r → r ≤ 10 → accel Accel.reference r = 50) ∧
  (∀ r, 11 ≤ r → r ≤ 14 → accel Accel.reference r = 100) ∧
  (∀ r, 15 ≤ r → accel Accel.reference r = 500) ∧
  (∀ r q, r ≤ q → accel Accel.reference r ≤ accel Accel.reference q)

/-- R242: ENCODER_MOVE, for every pulse count drawn. With VALUE_WIDTH unset, or set to W and new_position, the difference,
the step and the unclamped VALUE all in the W-bit signed range: exactly one event, CounterReset; LAST_POS is the new
position, VALUE the old one plus the scaled step, clamped at zero, and VALUE is returned. Otherwise OperandRange, with no
event and no state change. That LAST_POS and VALUE are written with the event is the model's reading (log 7), and so is that
the supply of draws has advanced (log 21). -/
def Obligations.EncoderMoveUpdatesValue : Prop :=
  ∀ (p : Int) (s : State) (diff scaled v : Int),
    diff = p - s.lastPos →
    scaled = diff * accel s.cfg.accel s.drawnPulse * s.speed.rangeMult →
    v = s.value + scaled →
    decode (.host { opcode := 0x30, operands := [.int p] }) = .ok (.encoderMove p) ∧
    ((∀ w, s.cfg.valueWidth = some w → ∀ x ∈ [p, diff, scaled, v],
        -(2 : Rat) ^ ((w : Int) - 1) ≤ x ∧ (x : Rat) ≤ (2 : Rat) ^ ((w : Int) - 1) - 1) →
      exec (.encoderMove p) s =
        .next { s.afterPulse with seq := .busy (.encoderMove p) 0, rotspeed := s.drawnPulse } ∧
      runSteps 1 { s.afterPulse with seq := .busy (.encoderMove p) 0, rotspeed := s.drawnPulse } =
        .next { s.afterPulse with
          lastPos := p
          value := if v < 0 then 0 else v
          trace := s.trace ++ [.counterReset]
          seq := .idle
          result := { status := .ok, value := some (.value (if v < 0 then 0 else v)) }
          rotspeed := s.drawnPulse }) ∧
    (∀ w, s.cfg.valueWidth = some w → (∃ x ∈ [p, diff, scaled, v],
        (x : Rat) < -(2 : Rat) ^ ((w : Int) - 1) ∨ (2 : Rat) ^ ((w : Int) - 1) - 1 < x) →
      exec (.encoderMove p) s =
        .next { s.afterPulse with seq := .idle, result := { status := .operandRange, value := none } })

/-- R244: for two completed movements from the same state and draw, VALUE is monotone in the new position, never negative
when it was not, exact for a difference that is not negative, and clamped at zero otherwise; LAST_POS is the new position
whatever the clamp did. -/
def Obligations.EncoderMoveProperties : Prop :=
  ∀ (p q : Int) (s : State), s.cfg.accel = Accel.reference → s.cfg.valueWidth = none → 0 ≤ s.value → p ≤ q →
    ∃ t u,
      runSteps 1 { s.afterPulse with seq := .busy (.encoderMove p) 0, rotspeed := s.drawnPulse } = .next t ∧
      runSteps 1 { s.afterPulse with seq := .busy (.encoderMove q) 0, rotspeed := s.drawnPulse } = .next u ∧
      0 ≤ t.value ∧ t.value ≤ u.value ∧ t.lastPos = p ∧ u.lastPos = q ∧
      (0 ≤ p - s.lastPos →
        t.value = s.value + (p - s.lastPos) * accel s.cfg.accel s.drawnPulse * s.speed.rangeMult) ∧
      (p - s.lastPos < 0 →
        t.value = max 0 (s.value + (p - s.lastPos) * accel s.cfg.accel s.drawnPulse * s.speed.rangeMult))

/-! ### Speed-range selector -/

/-- R260: the next state, its multiplier, its unit string and its code. -/
def Obligations.SpeedRangeTable : Prop :=
  Speed.next .hz = .khz ∧ Speed.next .khz = .mhz ∧ Speed.next .mhz = .hz ∧
  Speed.rangeMult .hz = 1 ∧ Speed.rangeMult .khz = 1000 ∧ Speed.rangeMult .mhz = 1000000 ∧
  Speed.unitStr .hz = [0x48, 0x5A] ∧ Speed.unitStr .khz = [0x4B] ∧ Speed.unitStr .mhz = [0x4D] ∧
  Speed.code .hz = 0 ∧ Speed.code .khz = 1 ∧ Speed.code .mhz = 2

/-- R262, R261: BUTTON_PRESS advances SPEED, writes the unit of the range entered (register 9, and 8 for "HZ"), passes its
delay, and completes at its first poll when that poll reads the button released; register 8 keeps its content for "K"
and "M", cell 40 is zeroed, no other cell changes, and VALUE is not changed. -/
def Obligations.ButtonPressAdvancesRange : Prop :=
  ∀ s : State, s.drawnButton = true →
    decode (.host { opcode := 0x31, operands := [] }) = .ok .buttonPress ∧
    exec .buttonPress s = .next { s with speed := s.speed.next, seq := .busy .buttonPress 0 } ∧
    ∃ es u,
      runSteps ((if s.speed = .mhz then 440 else 220) + 2)
        { s with speed := s.speed.next, seq := .busy .buttonPress 0 } = .next u ∧
      EndsAfter es { s.afterButton with speed := s.speed.next } u ∧
      (s.speed = .hz → es = registerWrite 9 s.cfg.glyph[26] ∧ u.receiver.nib.reg 9 = s.cfg.glyph[26]) ∧
      (s.speed = .khz → es = registerWrite 9 s.cfg.glyph[28] ∧ u.receiver.nib.reg 9 = s.cfg.glyph[28]) ∧
      (s.speed = .mhz → es = registerWrite 8 s.cfg.glyph[23] ++ registerWrite 9 s.cfg.glyph[41] ∧
        u.receiver.nib.reg 8 = s.cfg.glyph[23] ∧ u.receiver.nib.reg 9 = s.cfg.glyph[41]) ∧
      Nib.read 40 u.receiver.nib = some 0 ∧
      (∀ a, a < (if s.speed = .mhz then 32 else 36) ∨ 40 < a →
        Nib.read a u.receiver.nib = Nib.read a s.receiver.nib)

/-- R263, R264: the delay emits nothing and reads nothing; each poll reads the button once, emits nothing, ends the
operation when it reads released, and otherwise goes on waiting, unless STUCK_TIMEOUT = some k bounds it. -/
def Obligations.ReleaseWaitSteps : Prop :=
  ∀ (s : State) (n : Nat),
    (s.seq = .debounce → step s = .next { s with seq := .waitRelease 0 }) ∧
    (s.seq = .waitRelease n → s.drawnButton = true →
      step s = .next { s.afterButton with seq := .idle, result := { status := .ok, value := none } }) ∧
    (s.seq = .waitRelease n → s.drawnButton = false → s.cfg.stuckTimeout = none →
      step s = .next { s.afterButton with seq := .waitRelease (n + 1) }) ∧
    (∀ k, s.seq = .waitRelease n → s.drawnButton = false → s.cfg.stuckTimeout = some k → n + 1 < k →
      step s = .next { s.afterButton with seq := .waitRelease (n + 1) }) ∧
    (∀ k, s.seq = .waitRelease n → s.drawnButton = false → s.cfg.stuckTimeout = some k → k ≤ n + 1 →
      step s = .next { s.afterButton with seq := .idle, result := { status := .stuckInput, value := none } })

/-- R265: in the reference configuration a button that stays pressed keeps the operation waiting, however long: no event,
no change but the count of polls. That each poll is one step is the model's (log 15, DEDUCED), and so is the list of levels
the polls read (log 5, DESIGN CHOICE). -/
def Obligations.StuckButtonHangs : Prop :=
  ∀ (s : State) (m n : Nat) (rest : List Bool),
    s.cfg.stuckTimeout = none → s.seq = .waitRelease m → s.buttons = List.replicate n false ++ rest →
    runSteps n s = .next { s with seq := .waitRelease (m + n), buttons := rest }

/-- R265, R283: with STUCK_TIMEOUT = some k, k polls that see the button pressed end the operation with StuckInput, and
what it has done before stays. That each poll is one step is the model's (log 15, DEDUCED), and so is the list of levels
the polls read (log 5, DESIGN CHOICE). -/
def Obligations.StuckTimeoutEndsWait : Prop :=
  ∀ (s : State) (k : Nat) (rest : List Bool),
    s.cfg.stuckTimeout = some k → 1 ≤ k → s.seq = .waitRelease 0 → s.buttons = List.replicate k false ++ rest →
    runSteps k s =
      .next { s with seq := .idle, result := { status := .stuckInput, value := none }, buttons := rest }

/-- From R266 (a), (b), for presses released at the first poll and with no other operation between them: from reset, under
any configuration, there is a number of steps after which m BUTTON_PRESS operations have completed and SPEED is HZ, KHZ or
MHZ as m mod 3 is 0, 1 or 2. The presses stand as a list on the port (log 2, DESIGN CHOICE) and the levels as a list the
environment has ready (log 5, DESIGN CHOICE). -/
def Obligations.PressesCycleTheRange : Prop :=
  ∀ (cfg : Config) (m : Nat),
    ∃ n u, runSteps n { State.powerUp cfg with
        port := List.replicate m { opcode := 0x31, operands := [] }, buttons := List.replicate m true } = .next u ∧
      u.seq = .idle ∧ u.port = [] ∧
      (m % 3 = 0 → u.speed = .hz) ∧ (m % 3 = 1 → u.speed = .khz) ∧ (m % 3 = 2 → u.speed = .mhz)

/-! ### Reset and whole-machine properties -/

/-- R44: what a run begins from, for every configuration. A cell of NIB holds a free value, "any value". -/
def Obligations.ResetValues : Prop :=
  ∀ cfg : Config,
    (State.powerUp cfg).lines.data = false ∧ (State.powerUp cfg).lines.wr = false ∧
    (State.powerUp cfg).lines.cs = true ∧ (State.powerUp cfg).lastPos = cfg.positionInit ∧
    (State.powerUp cfg).value = cfg.valueInit ∧ (State.powerUp cfg).speed = .hz ∧ (State.powerUp cfg).seq = .idle ∧
    (State.powerUp cfg).result = { status := .ok, value := none } ∧ (State.powerUp cfg).trace = [] ∧
    (State.powerUp cfg).cfg.glyph = cfg.glyph ∧ (State.powerUp cfg).cfg.dpMask = cfg.dpMask ∧
    ∀ a, a < 64 → (State.powerUp cfg).receiver.nib.cell a = Config.powerUpNibble a

/-- The model's choice of a configuration for `State.reset` (log 3): the reset values under the thresholds and
multipliers of R8 and the reference VALUE_WIDTH and STUCK_TIMEOUT, none; the OPEN values stay unknown. -/
def Obligations.ResetConfiguration : Prop :=
  State.reset = State.powerUp Config.platform ∧ Config.platform.accel = Accel.reference ∧
  Config.platform.valueWidth = none ∧ Config.platform.stuckTimeout = none

/-- A reset at any time abandons the operation in progress (R310, decision D30; the model's form of it, log 17, DESIGN
CHOICE): every field of the block has its reset value under the same configuration, the trace starts empty, no frame is
open, and the block waits for the host's first operation; a display memory in canonical form stays so, whatever it holds.
That the port is empty then and that the environment's supply of pulse counts and button levels goes on are the model's
choices (log 17). -/
def Obligations.ResetAbandonsOperation : Prop :=
  ∀ (s : State) (nib : Nib), Memory.wf nib = true →
    s.restart nib =
      { State.powerUp s.cfg with
        receiver := { frame := none, nib := nib }, pulses := s.pulses, buttons := s.buttons, draws := s.draws } ∧
    (s.restart nib).seq = .idle ∧ (s.restart nib).lines = Lines.idle ∧ (s.restart nib).trace = [] ∧
    (s.restart nib).result = { status := .ok, value := none } ∧ (s.restart nib).speed = .hz ∧
    (s.restart nib).lastPos = s.cfg.positionInit ∧ (s.restart nib).value = s.cfg.valueInit ∧
    (s.restart nib).Inv ∧ step (s.restart nib) = .next (s.restart nib)

/-- The invariant holds at reset, whatever the configuration. -/
def Obligations.InvariantAtReset : Prop :=
  ∀ cfg : Config, (State.powerUp cfg).Inv

/-- R33 and R40: every step keeps the invariant: the lines are idle and no frame is open whenever no event sequence is in
progress, VALUE is not negative, the display memory is in canonical form, and in BUSY an event is left. -/
def Obligations.InvariantKept : Prop :=
  ∀ s t : State, s.Inv → step s = .next t → t.Inv

/-- The lines and the receiver are what the trace says at reset, for every configuration. -/
def Obligations.TraceExplainsAtReset : Prop :=
  ∀ cfg : Config, (State.powerUp cfg).traceExplains

/-- R83: every step keeps the lines and the receiver what the trace says: a cell holds the payload of the last closed
write frame to it, or its power-up value if there is none. -/
def Obligations.TraceExplainsKept : Prop :=
  ∀ s t : State, s.traceExplains → step s = .next t → t.traceExplains

/-- R241: with VALUE_WIDTH = W set, every step keeps LAST_POS and VALUE in the W-bit signed range. -/
def Obligations.WidthKept : Prop :=
  ∀ (w : Nat) (s t : State), s.widthHolds w → step s = .next t → t.widthHolds w

/-- Every program of host operations runs to completion, one operation after another, from any IDLE state, if every poll
of the button reads released: there is a number of steps after which all are done. The program stands as a list on the
port and nothing is in the issue latch (logs 2 and 11, DESIGN CHOICE); the levels are a list the environment has ready
(log 5, DESIGN CHOICE); words with operands of other types are left out (log 10, DESIGN CHOICE). -/
def Obligations.EveryProgramCompletes : Prop :=
  ∀ (s : State) (program : List HostWord) (rest : List Bool),
    s.seq = .idle → s.issue = none → (∀ w ∈ program, ∃ i, decode (.host w) = .ok i) →
    ∃ n u, runSteps n { s with port := program, buttons := List.replicate program.length true ++ rest } = .next u ∧
      u.seq = .idle ∧ u.port = [] ∧ u.issue = none
end

