-- ==== Sys2Proof/Laws/State.lean ====
section
/-! SUPPORT. One lemma per field per update of the state, so that later proofs need not unfold a record update. -/

namespace Sys2Proof.Machine

/-! ### `State.emit`: the lines, the receiver and the trace; nothing else -/

@[simp] theorem emit_cfg (e : Event) (s : State) : (s.emit e).cfg = s.cfg := by cases e <;> rfl
@[simp] theorem emit_lastPos (e : Event) (s : State) : (s.emit e).lastPos = s.lastPos := by cases e <;> rfl
@[simp] theorem emit_value (e : Event) (s : State) : (s.emit e).value = s.value := by cases e <;> rfl
@[simp] theorem emit_speed (e : Event) (s : State) : (s.emit e).speed = s.speed := by cases e <;> rfl
@[simp] theorem emit_seq (e : Event) (s : State) : (s.emit e).seq = s.seq := by cases e <;> rfl
@[simp] theorem emit_result (e : Event) (s : State) : (s.emit e).result = s.result := by cases e <;> rfl
@[simp] theorem emit_port (e : Event) (s : State) : (s.emit e).port = s.port := by cases e <;> rfl
@[simp] theorem emit_rotspeed (e : Event) (s : State) : (s.emit e).rotspeed = s.rotspeed := by cases e <;> rfl
@[simp] theorem emit_issue (e : Event) (s : State) : (s.emit e).issue = s.issue := by cases e <;> rfl
@[simp] theorem emit_pulses (e : Event) (s : State) : (s.emit e).pulses = s.pulses := by cases e <;> rfl
@[simp] theorem emit_buttons (e : Event) (s : State) : (s.emit e).buttons = s.buttons := by cases e <;> rfl
@[simp] theorem emit_draws (e : Event) (s : State) : (s.emit e).draws = s.draws := by cases e <;> rfl
@[simp] theorem emit_trace (e : Event) (s : State) : (s.emit e).trace = s.trace ++ [e] := by cases e <;> rfl
@[simp] theorem emit_setLine_lines (l : Line) (v : Bool) (s : State) : (s.emit (.setLine l v)).lines = s.lines.set l v := rfl
@[simp] theorem emit_setLine_receiver (l : Line) (v : Bool) (s : State) : (s.emit (.setLine l v)).receiver = s.receiver.sense l v s.lines.data := rfl
@[simp] theorem emit_counterReset_lines (s : State) : (s.emit .counterReset).lines = s.lines := rfl
@[simp] theorem emit_counterReset_receiver (s : State) : (s.emit .counterReset).receiver = s.receiver := rfl

/-! ### `State.emitAll` -/

@[simp] theorem emitAll_nil (s : State) : s.emitAll [] = s := rfl
@[simp] theorem emitAll_cons (e : Event) (es : List Event) (s : State) : s.emitAll (e :: es) = (s.emit e).emitAll es := rfl
@[simp] theorem emitAll_append (es fs : List Event) (s : State) : s.emitAll (es ++ fs) = (s.emitAll es).emitAll fs := by simp [State.emitAll]
@[simp] theorem emitAll_cfg (es : List Event) (s : State) : (s.emitAll es).cfg = s.cfg := by
  induction es generalizing s with
  | nil => rfl
  | cons e es ih => simp [ih]
@[simp] theorem emitAll_lastPos (es : List Event) (s : State) : (s.emitAll es).lastPos = s.lastPos := by
  induction es generalizing s with
  | nil => rfl
  | cons e es ih => simp [ih]
@[simp] theorem emitAll_value (es : List Event) (s : State) : (s.emitAll es).value = s.value := by
  induction es generalizing s with
  | nil => rfl
  | cons e es ih => simp [ih]
@[simp] theorem emitAll_speed (es : List Event) (s : State) : (s.emitAll es).speed = s.speed := by
  induction es generalizing s with
  | nil => rfl
  | cons e es ih => simp [ih]
@[simp] theorem emitAll_seq (es : List Event) (s : State) : (s.emitAll es).seq = s.seq := by
  induction es generalizing s with
  | nil => rfl
  | cons e es ih => simp [ih]
@[simp] theorem emitAll_result (es : List Event) (s : State) : (s.emitAll es).result = s.result := by
  induction es generalizing s with
  | nil => rfl
  | cons e es ih => simp [ih]
@[simp] theorem emitAll_port (es : List Event) (s : State) : (s.emitAll es).port = s.port := by
  induction es generalizing s with
  | nil => rfl
  | cons e es ih => simp [ih]
@[simp] theorem emitAll_rotspeed (es : List Event) (s : State) : (s.emitAll es).rotspeed = s.rotspeed := by
  induction es generalizing s with
  | nil => rfl
  | cons e es ih => simp [ih]
@[simp] theorem emitAll_issue (es : List Event) (s : State) : (s.emitAll es).issue = s.issue := by
  induction es generalizing s with
  | nil => rfl
  | cons e es ih => simp [ih]
@[simp] theorem emitAll_pulses (es : List Event) (s : State) : (s.emitAll es).pulses = s.pulses := by
  induction es generalizing s with
  | nil => rfl
  | cons e es ih => simp [ih]
@[simp] theorem emitAll_buttons (es : List Event) (s : State) : (s.emitAll es).buttons = s.buttons := by
  induction es generalizing s with
  | nil => rfl
  | cons e es ih => simp [ih]
@[simp] theorem emitAll_draws (es : List Event) (s : State) : (s.emitAll es).draws = s.draws := by
  induction es generalizing s with
  | nil => rfl
  | cons e es ih => simp [ih]
@[simp] theorem emitAll_trace (es : List Event) (s : State) : (s.emitAll es).trace = s.trace ++ es := by
  induction es generalizing s with
  | nil => simp
  | cons e es ih => simp [ih]

/-! ### `State.complete` -/

@[simp] theorem complete_cfg (v : Option ReturnValue) (s : State) : (s.complete v).cfg = s.cfg := rfl
@[simp] theorem complete_lines (v : Option ReturnValue) (s : State) : (s.complete v).lines = s.lines := rfl
@[simp] theorem complete_lastPos (v : Option ReturnValue) (s : State) : (s.complete v).lastPos = s.lastPos := rfl
@[simp] theorem complete_value (v : Option ReturnValue) (s : State) : (s.complete v).value = s.value := rfl
@[simp] theorem complete_speed (v : Option ReturnValue) (s : State) : (s.complete v).speed = s.speed := rfl
@[simp] theorem complete_seq (v : Option ReturnValue) (s : State) : (s.complete v).seq = .idle := rfl
@[simp] theorem complete_result (v : Option ReturnValue) (s : State) : (s.complete v).result = { status := .ok, value := v } := rfl
@[simp] theorem complete_receiver (v : Option ReturnValue) (s : State) : (s.complete v).receiver = s.receiver := rfl
@[simp] theorem complete_trace (v : Option ReturnValue) (s : State) : (s.complete v).trace = s.trace := rfl
@[simp] theorem complete_port (v : Option ReturnValue) (s : State) : (s.complete v).port = s.port := rfl
@[simp] theorem complete_rotspeed (v : Option ReturnValue) (s : State) : (s.complete v).rotspeed = s.rotspeed := rfl
@[simp] theorem complete_issue (v : Option ReturnValue) (s : State) : (s.complete v).issue = s.issue := rfl
@[simp] theorem complete_pulses (v : Option ReturnValue) (s : State) : (s.complete v).pulses = s.pulses := rfl
@[simp] theorem complete_buttons (v : Option ReturnValue) (s : State) : (s.complete v).buttons = s.buttons := rfl
@[simp] theorem complete_draws (v : Option ReturnValue) (s : State) : (s.complete v).draws = s.draws := rfl

/-! ### `State.raise` -/

@[simp] theorem raise_cfg (e : Status) (s : State) : (s.raise e).cfg = s.cfg := rfl
@[simp] theorem raise_lines (e : Status) (s : State) : (s.raise e).lines = s.lines := rfl
@[simp] theorem raise_lastPos (e : Status) (s : State) : (s.raise e).lastPos = s.lastPos := rfl
@[simp] theorem raise_value (e : Status) (s : State) : (s.raise e).value = s.value := rfl
@[simp] theorem raise_speed (e : Status) (s : State) : (s.raise e).speed = s.speed := rfl
@[simp] theorem raise_seq (e : Status) (s : State) : (s.raise e).seq = .idle := rfl
@[simp] theorem raise_result (e : Status) (s : State) : (s.raise e).result = { status := e, value := none } := rfl
@[simp] theorem raise_receiver (e : Status) (s : State) : (s.raise e).receiver = s.receiver := rfl
@[simp] theorem raise_trace (e : Status) (s : State) : (s.raise e).trace = s.trace := rfl
@[simp] theorem raise_port (e : Status) (s : State) : (s.raise e).port = s.port := rfl
@[simp] theorem raise_rotspeed (e : Status) (s : State) : (s.raise e).rotspeed = s.rotspeed := rfl
@[simp] theorem raise_issue (e : Status) (s : State) : (s.raise e).issue = s.issue := rfl
@[simp] theorem raise_pulses (e : Status) (s : State) : (s.raise e).pulses = s.pulses := rfl
@[simp] theorem raise_buttons (e : Status) (s : State) : (s.raise e).buttons = s.buttons := rfl
@[simp] theorem raise_draws (e : Status) (s : State) : (s.raise e).draws = s.draws := rfl

/-! ### `State.accept` -/

@[simp] theorem accept_cfg (op : Instr) (s : State) : (s.accept op).cfg = s.cfg := rfl
@[simp] theorem accept_lines (op : Instr) (s : State) : (s.accept op).lines = s.lines := rfl
@[simp] theorem accept_lastPos (op : Instr) (s : State) : (s.accept op).lastPos = s.lastPos := rfl
@[simp] theorem accept_value (op : Instr) (s : State) : (s.accept op).value = s.value := rfl
@[simp] theorem accept_speed (op : Instr) (s : State) : (s.accept op).speed = s.speed := rfl
@[simp] theorem accept_seq (op : Instr) (s : State) : (s.accept op).seq = .busy op 0 := rfl
@[simp] theorem accept_result (op : Instr) (s : State) : (s.accept op).result = s.result := rfl
@[simp] theorem accept_receiver (op : Instr) (s : State) : (s.accept op).receiver = s.receiver := rfl
@[simp] theorem accept_trace (op : Instr) (s : State) : (s.accept op).trace = s.trace := rfl
@[simp] theorem accept_port (op : Instr) (s : State) : (s.accept op).port = s.port := rfl
@[simp] theorem accept_rotspeed (op : Instr) (s : State) : (s.accept op).rotspeed = s.rotspeed := rfl
@[simp] theorem accept_issue (op : Instr) (s : State) : (s.accept op).issue = s.issue := rfl
@[simp] theorem accept_pulses (op : Instr) (s : State) : (s.accept op).pulses = s.pulses := rfl
@[simp] theorem accept_buttons (op : Instr) (s : State) : (s.accept op).buttons = s.buttons := rfl
@[simp] theorem accept_draws (op : Instr) (s : State) : (s.accept op).draws = s.draws := rfl

/-! ### `State.afterPulse` -/

@[simp] theorem afterPulse_cfg (s : State) : s.afterPulse.cfg = s.cfg := rfl
@[simp] theorem afterPulse_lines (s : State) : s.afterPulse.lines = s.lines := rfl
@[simp] theorem afterPulse_lastPos (s : State) : s.afterPulse.lastPos = s.lastPos := rfl
@[simp] theorem afterPulse_value (s : State) : s.afterPulse.value = s.value := rfl
@[simp] theorem afterPulse_speed (s : State) : s.afterPulse.speed = s.speed := rfl
@[simp] theorem afterPulse_seq (s : State) : s.afterPulse.seq = s.seq := rfl
@[simp] theorem afterPulse_result (s : State) : s.afterPulse.result = s.result := rfl
@[simp] theorem afterPulse_receiver (s : State) : s.afterPulse.receiver = s.receiver := rfl
@[simp] theorem afterPulse_trace (s : State) : s.afterPulse.trace = s.trace := rfl
@[simp] theorem afterPulse_port (s : State) : s.afterPulse.port = s.port := rfl
@[simp] theorem afterPulse_rotspeed (s : State) : s.afterPulse.rotspeed = s.rotspeed := rfl
@[simp] theorem afterPulse_issue (s : State) : s.afterPulse.issue = s.issue := rfl
@[simp] theorem afterPulse_pulses (s : State) : s.afterPulse.pulses = s.pulses.tail := rfl
@[simp] theorem afterPulse_buttons (s : State) : s.afterPulse.buttons = s.buttons := rfl
@[simp] theorem afterPulse_draws (s : State) : s.afterPulse.draws = if s.pulses = [] then s.draws + 1 else s.draws := rfl

/-! ### `State.afterButton` -/

@[simp] theorem afterButton_cfg (s : State) : s.afterButton.cfg = s.cfg := rfl
@[simp] theorem afterButton_lines (s : State) : s.afterButton.lines = s.lines := rfl
@[simp] theorem afterButton_lastPos (s : State) : s.afterButton.lastPos = s.lastPos := rfl
@[simp] theorem afterButton_value (s : State) : s.afterButton.value = s.value := rfl
@[simp] theorem afterButton_speed (s : State) : s.afterButton.speed = s.speed := rfl
@[simp] theorem afterButton_seq (s : State) : s.afterButton.seq = s.seq := rfl
@[simp] theorem afterButton_result (s : State) : s.afterButton.result = s.result := rfl
@[simp] theorem afterButton_receiver (s : State) : s.afterButton.receiver = s.receiver := rfl
@[simp] theorem afterButton_trace (s : State) : s.afterButton.trace = s.trace := rfl
@[simp] theorem afterButton_port (s : State) : s.afterButton.port = s.port := rfl
@[simp] theorem afterButton_rotspeed (s : State) : s.afterButton.rotspeed = s.rotspeed := rfl
@[simp] theorem afterButton_issue (s : State) : s.afterButton.issue = s.issue := rfl
@[simp] theorem afterButton_pulses (s : State) : s.afterButton.pulses = s.pulses := rfl
@[simp] theorem afterButton_buttons (s : State) : s.afterButton.buttons = s.buttons.tail := rfl
@[simp] theorem afterButton_draws (s : State) : s.afterButton.draws = if s.buttons = [] then s.draws + 1 else s.draws := rfl

/-! ### `State.powerUp` -/

@[simp] theorem powerUp_cfg (cfg : Config) : (State.powerUp cfg).cfg = cfg := rfl
@[simp] theorem powerUp_lines (cfg : Config) : (State.powerUp cfg).lines = Lines.idle := rfl
@[simp] theorem powerUp_lastPos (cfg : Config) : (State.powerUp cfg).lastPos = cfg.positionInit := rfl
@[simp] theorem powerUp_value (cfg : Config) : (State.powerUp cfg).value = cfg.valueInit := rfl
@[simp] theorem powerUp_speed (cfg : Config) : (State.powerUp cfg).speed = .hz := rfl
@[simp] theorem powerUp_seq (cfg : Config) : (State.powerUp cfg).seq = .idle := rfl
@[simp] theorem powerUp_result (cfg : Config) : (State.powerUp cfg).result = { status := .ok, value := none } := rfl
@[simp] theorem powerUp_receiver (cfg : Config) : (State.powerUp cfg).receiver = { frame := none, nib := [] } := rfl
@[simp] theorem powerUp_trace (cfg : Config) : (State.powerUp cfg).trace = [] := rfl
@[simp] theorem powerUp_port (cfg : Config) : (State.powerUp cfg).port = [] := rfl
@[simp] theorem powerUp_rotspeed (cfg : Config) : (State.powerUp cfg).rotspeed = 0 := rfl
@[simp] theorem powerUp_issue (cfg : Config) : (State.powerUp cfg).issue = none := rfl
@[simp] theorem powerUp_pulses (cfg : Config) : (State.powerUp cfg).pulses = [] := rfl
@[simp] theorem powerUp_buttons (cfg : Config) : (State.powerUp cfg).buttons = [] := rfl
@[simp] theorem powerUp_draws (cfg : Config) : (State.powerUp cfg).draws = 0 := rfl

/-! ### `State.restart`: the values of `State.powerUp`, but for the display memory and the environment's supply -/

@[simp] theorem restart_cfg (nib : Nib) (s : State) : (s.restart nib).cfg = s.cfg := rfl
@[simp] theorem restart_lines (nib : Nib) (s : State) : (s.restart nib).lines = Lines.idle := rfl
@[simp] theorem restart_lastPos (nib : Nib) (s : State) : (s.restart nib).lastPos = s.cfg.positionInit := rfl
@[simp] theorem restart_value (nib : Nib) (s : State) : (s.restart nib).value = s.cfg.valueInit := rfl
@[simp] theorem restart_speed (nib : Nib) (s : State) : (s.restart nib).speed = .hz := rfl
@[simp] theorem restart_seq (nib : Nib) (s : State) : (s.restart nib).seq = .idle := rfl
@[simp] theorem restart_result (nib : Nib) (s : State) : (s.restart nib).result = { status := .ok, value := none } := rfl
@[simp] theorem restart_receiver (nib : Nib) (s : State) : (s.restart nib).receiver = { frame := none, nib := nib } := rfl
@[simp] theorem restart_trace (nib : Nib) (s : State) : (s.restart nib).trace = [] := rfl
@[simp] theorem restart_port (nib : Nib) (s : State) : (s.restart nib).port = [] := rfl
@[simp] theorem restart_rotspeed (nib : Nib) (s : State) : (s.restart nib).rotspeed = 0 := rfl
@[simp] theorem restart_issue (nib : Nib) (s : State) : (s.restart nib).issue = none := rfl
@[simp] theorem restart_pulses (nib : Nib) (s : State) : (s.restart nib).pulses = s.pulses := rfl
@[simp] theorem restart_buttons (nib : Nib) (s : State) : (s.restart nib).buttons = s.buttons := rfl
@[simp] theorem restart_draws (nib : Nib) (s : State) : (s.restart nib).draws = s.draws := rfl

/-! ### Line latches -/

@[simp] theorem lines_set_data (v : Bool) (ls : Lines) : (ls.set .data v) = { ls with data := v } := rfl
@[simp] theorem lines_set_wr (v : Bool) (ls : Lines) : (ls.set .wr v) = { ls with wr := v } := rfl
@[simp] theorem lines_set_cs (v : Bool) (ls : Lines) : (ls.set .cs v) = { ls with cs := v } := rfl

/-- A state is `s` with three parts replaced when every other field agrees. -/
theorem emitAll_eq (es : List Event) (s : State) :
    s.emitAll es =
      { s with
        lines := (s.emitAll es).lines
        receiver := (s.emitAll es).receiver
        trace := s.trace ++ es } := by
  induction es generalizing s with
  | nil => simp
  | cons e es ih =>
    rw [emitAll_cons, ih]
    cases e <;> simp [State.emit]

end Sys2Proof.Machine
end

