-- ==== Sys2Proof/Laws/Memory.lean ====
section
/-! SUPPORT. The laws of the display memory: read after write, the canonical form, idempotence (spec/20_memory.md R72, R79). -/

namespace Sys2Proof.Machine

@[simp] theorem nib_read_nil (a : Nat) : Nib.read a [] = none := rfl

/-- A read after a write to the same cell gives the payload. -/
@[simp] theorem nib_read_write_same (a : Nat) (d : Nibble) (m : Nib) : Nib.read a (Nib.write a d m) = some d := by
  induction m with
  | nil => simp [Nib.write, Nib.read]
  | cons h t ih =>
    obtain ⟨b, e⟩ := h
    simp only [Nib.write]
    split_ifs with h1 h2 <;> simp_all [Nib.read]

/-- A write leaves every other cell alone. -/
theorem nib_read_write_other {a b : Nat} (h : b ≠ a) (d : Nibble) (m : Nib) :
    Nib.read b (Nib.write a d m) = Nib.read b m := by
  induction m with
  | nil => simp [Nib.write, Nib.read, h]
  | cons x t ih =>
    obtain ⟨c, e⟩ := x
    simp only [Nib.write]
    split_ifs with h1 h2
    · simp [Nib.read, h]
    · subst h2; simp [Nib.read, h]
    · simp only [Nib.read, ih]

theorem nib_read_write (a b : Nat) (d : Nibble) (m : Nib) :
    Nib.read b (Nib.write a d m) = if b = a then some d else Nib.read b m := by
  split_ifs with h
  · subst h; simp
  · exact nib_read_write_other h d m

/-- Writing the same payload twice is writing it once (R79). -/
theorem nib_write_write (a : Nat) (d : Nibble) (m : Nib) : Nib.write a d (Nib.write a d m) = Nib.write a d m := by
  induction m with
  | nil => simp [Nib.write]
  | cons x t ih =>
    obtain ⟨b, e⟩ := x
    simp only [Nib.write]
    split_ifs with h1 h2
    · simp [Nib.write]
    · simp [Nib.write]
    · simp [Nib.write, h1, h2, ih]

theorem nib_write_rises {lo a : Nat} (d : Nibble) (m : Nib) (ha : lo ≤ a) (h64 : a < 64)
    (h : Nib.risesFrom lo m = true) : Nib.risesFrom lo (Nib.write a d m) = true := by
  induction m generalizing lo with
  | nil => simp [Nib.write, Nib.risesFrom, ha, h64]
  | cons x t ih =>
    obtain ⟨b, e⟩ := x
    simp only [Nib.risesFrom, Bool.and_eq_true, decide_eq_true_eq] at h
    simp only [Nib.write]
    split_ifs with h1 h2
    · simp only [Nib.risesFrom, Bool.and_eq_true, decide_eq_true_eq]; exact ⟨⟨ha, h64⟩, ⟨by omega, h.1.2⟩, h.2⟩
    · subst h2; simp only [Nib.risesFrom, Bool.and_eq_true, decide_eq_true_eq]; exact h
    · simp only [Nib.risesFrom, Bool.and_eq_true, decide_eq_true_eq]
      exact ⟨h.1, ih (by omega) h.2⟩

/-- A write keeps the canonical form. -/
theorem nib_write_wf {a : Nat} (d : Nibble) {m : Nib} (h64 : a < 64) (h : Memory.wf m = true) :
    Memory.wf (Nib.write a d m) = true :=
  nib_write_rises d m (Nat.zero_le a) h64 h

/-- A closed frame keeps the canonical form. -/
theorem receiver_close_wf (bits : List Bool) {r : Receiver} (h : Memory.wf r.nib = true) :
    Memory.wf (r.close bits).nib = true := by
  unfold Receiver.close
  split
  · next a d _ => exact nib_write_wf d a.isLt h
  · exact h
  · exact h

/-- What the receiver does at a line event keeps the canonical form. -/
theorem receiver_sense_wf (l : Line) (v data : Bool) {r : Receiver} (h : Memory.wf r.nib = true) :
    Memory.wf (r.sense l v data).nib = true := by
  unfold Receiver.sense
  split
  · exact h
  · split
    · exact receiver_close_wf _ h
    · exact h
  · split <;> exact h
  · exact h
  · exact h

theorem emit_wf (e : Event) {s : State} (h : Memory.wf s.receiver.nib = true) :
    Memory.wf (s.emit e).receiver.nib = true := by
  cases e with
  | setLine l v => exact receiver_sense_wf l v _ h
  | counterReset => exact h

theorem emitAll_wf (es : List Event) {s : State} (h : Memory.wf s.receiver.nib = true) :
    Memory.wf (s.emitAll es).receiver.nib = true := by
  induction es generalizing s with
  | nil => exact h
  | cons e es ih => exact ih (emit_wf e h)

/-- The memory of the reset state is in canonical form. -/
theorem powerUp_wf (cfg : Config) : Memory.wf (State.powerUp cfg).receiver.nib = true := rfl

end Sys2Proof.Machine
end

