-- ==== Sys2Proof/Laws/Encoding.lean ====
section
/-! SUPPORT. Bit strings and the round trip of the wire frames (spec/30_encoding.md R101, R102). -/

namespace Sys2Proof

@[simp] theorem bitsMsb_length (n v : Nat) : (bitsMsb n v).length = n := by
  induction n with
  | zero => rfl
  | succ n ih => simp [bitsMsb, ih]

theorem foldl_bits (bits : List Bool) (acc : Nat) :
    bits.foldl (fun acc b => 2 * acc + b.toNat) acc = acc * 2 ^ bits.length + natOfBits bits := by
  induction bits generalizing acc with
  | nil => simp [natOfBits]
  | cons b bs ih =>
    have h0 : natOfBits (b :: bs) = bs.foldl (fun acc b => 2 * acc + b.toNat) (2 * 0 + b.toNat) := rfl
    rw [h0, List.foldl_cons, ih, ih, List.length_cons]
    ring

theorem natOfBits_cons (b : Bool) (bs : List Bool) :
    natOfBits (b :: bs) = b.toNat * 2 ^ bs.length + natOfBits bs := by
  have h0 : natOfBits (b :: bs) = bs.foldl (fun acc b => 2 * acc + b.toNat) (2 * 0 + b.toNat) := rfl
  rw [h0, foldl_bits]
  simp

/-- Reading back the low `n` bits of `v` gives `v` truncated to `n` bits (R160). -/
theorem natOfBits_bitsMsb (n v : Nat) : natOfBits (bitsMsb n v) = v % 2 ^ n := by
  induction n with
  | zero => simp [bitsMsb, natOfBits, Nat.mod_one]
  | succ n ih =>
    rw [bitsMsb, natOfBits_cons, bitsMsb_length, ih, Nat.mod_pow_succ, Nat.toNat_testBit, Nat.add_comm, Nat.mul_comm]

@[simp] theorem decodeWire_frameCmd (c : Byte) : decodeWire (frameCmdBits c) = .ok (.frameCmd c) := by
  have hlen : (frameCmdBits c).length = 12 := by unfold frameCmdBits; simp; rfl
  have htake : (frameCmdBits c).take 4 = [true, false, false, false] := rfl
  have hdrop : (frameCmdBits c).drop 4 = bitsMsb 8 c.toNat := rfl
  unfold decodeWire
  rw [if_pos ⟨hlen, htake⟩, hdrop, natOfBits_bitsMsb, Nat.mod_eq_of_lt c.isLt]
  simp

@[simp] theorem decodeWire_frameWr (a : Addr6) (d : Nibble) :
    decodeWire (frameWrBits a d) = .ok (.frameWr a d) := by
  have hlen : (frameWrBits a d).length = 13 := by unfold frameWrBits; simp; rfl
  have htake : (frameWrBits a d).take 3 = [true, false, true] := rfl
  have haddr : ((frameWrBits a d).drop 3).take 6 = bitsMsb 6 a.toNat := rfl
  have hnib : (frameWrBits a d).drop 9 = bitsMsb 4 d.toNat := rfl
  unfold decodeWire
  rw [if_neg (by omega), if_pos ⟨hlen, htake⟩, haddr, hnib, natOfBits_bitsMsb, natOfBits_bitsMsb,
    Nat.mod_eq_of_lt a.isLt, Nat.mod_eq_of_lt d.isLt]
  simp

/-- One line of the opcode map: it applies, or the rest of the map does. -/
theorem row_or_rest {o a : Byte} {f r : List Operand → Option Instr} {e : Option (List Operand → Option Instr)}
    (h : (if o = a then some f else e) = some r) : (o = a ∧ f = r) ∨ e = some r := by
  split at h
  · exact .inl ⟨‹_›, Option.some.inj h⟩
  · exact .inr h

theorem readNone_some {i j : Instr} {xs : List Operand} (h : readNone i xs = some j) : xs = [] ∧ j = i := by
  unfold readNone at h; split at h <;> simp_all
theorem readInt_some {f : Int → Instr} {j : Instr} {xs : List Operand}
    (h : readInt f xs = some j) : ∃ v, xs = [.int v] ∧ j = f v := by
  unfold readInt at h; split at h <;> simp_all
theorem readByte_some {f : Byte → Instr} {j : Instr} {xs : List Operand}
    (h : readByte f xs = some j) : ∃ v, xs = [.byte v] ∧ j = f v := by
  unfold readByte at h; split at h <;> simp_all
theorem readText_some {f : List Byte → Instr} {j : Instr} {xs : List Operand}
    (h : readText f xs = some j) : ∃ v, xs = [.text v] ∧ j = f v := by
  unfold readText at h; split at h <;> simp_all
theorem readIntByte_some {f : Int → Byte → Instr} {j : Instr} {xs : List Operand}
    (h : readIntByte f xs = some j) : ∃ v c, xs = [.int v, .byte c] ∧ j = f v c := by
  unfold readIntByte at h; split at h <;> simp_all
theorem readNibbleHalf_some {f : Nibble → Half → Instr} {j : Instr} {xs : List Operand}
    (h : readNibbleHalf f xs = some j) : ∃ v c, xs = [.nibble v, .half c] ∧ j = f v c := by
  unfold readNibbleHalf at h; split at h <;> simp_all

/-- What a row of the opcode map reads is a host instruction whose own word is the one read (R104). -/
theorem hostRow_reads {o : Byte} {r : List Operand → Option Instr} (hr : hostRow o = some r) {xs : List Operand} {i : Instr}
    (h : r xs = some i) : i.wf = true ∧ i.format = .host ∧ encode i = hostWord o xs := by
  unfold hostRow at hr
  repeat
    rcases row_or_rest hr with ⟨rfl, rfl⟩ | hr
    · first
      | obtain ⟨rfl, rfl⟩ := readNone_some h; exact ⟨rfl, rfl, rfl⟩
      | obtain ⟨_, rfl, rfl⟩ := readInt_some h; exact ⟨rfl, rfl, rfl⟩
      | obtain ⟨_, rfl, rfl⟩ := readByte_some h; exact ⟨rfl, rfl, rfl⟩
      | obtain ⟨_, rfl, rfl⟩ := readText_some h; exact ⟨rfl, rfl, rfl⟩
      | obtain ⟨_, _, rfl, rfl⟩ := readIntByte_some h; exact ⟨rfl, rfl, rfl⟩
      | obtain ⟨_, _, rfl, rfl⟩ := readNibbleHalf_some h; exact ⟨rfl, rfl, rfl⟩
  cases hr

/-- The opcode map has a row for exactly the assigned opcodes (R104, R109). -/
theorem hostRow_isNone (o : Byte) : (hostRow o).isNone = !assignedOpcodes.contains o := by
  have h : ∀ o : Byte, (hostRow o).isNone = !assignedOpcodes.contains o := by decide +kernel
  exact h o

end Sys2Proof
end

