-- ==== Sys2Proof/Laws/Wire.lean ====
section
/-! SUPPORT. What the events of a frame do to the lines and the receiver (spec/41_protocol.md R160 to R165,
spec/20_memory.md R71, R72). -/

namespace Sys2Proof.Machine

/-- One bit: its level is sampled once, and WR ends low (R161). -/
theorem emitAll_bit (b : Bool) (s : State) :
    s.emitAll (bitEvents b) =
      { s with
        lines := { data := b, wr := false, cs := s.lines.cs }
        receiver := { frame := s.receiver.frame.map fun bits => bits ++ [b], nib := s.receiver.nib }
        trace := s.trace ++ bitEvents b } := by
  obtain ⟨cfg, lines, lp, v, sp, sq, res, ⟨frame, nib⟩, tr, port, rot, iss, pu, bu, dr⟩ := s
  cases frame <;> simp [bitEvents, State.emitAll, State.emit, Receiver.sense]

/-- A string of bits, without the final DATA event. -/
theorem emitAll_bits (bits : List Bool) (s : State) :
    s.emitAll (bits.flatMap bitEvents) =
      { s with
        lines := { data := bits.getLastD s.lines.data
                   wr := if bits = [] then s.lines.wr else false
                   cs := s.lines.cs }
        receiver := { frame := s.receiver.frame.map fun old => old ++ bits, nib := s.receiver.nib }
        trace := s.trace ++ bits.flatMap bitEvents } := by
  induction bits generalizing s with
  | nil => simp
  | cons b bs ih =>
    rw [List.flatMap_cons, emitAll_append, ih, emitAll_bit]
    simp [Function.comp_def, List.getLast?_cons]

/-- SEND_BITS: the low `n` bits of `v` reach the frame that is open, and DATA and WR end low (R160, R161). -/
theorem emitAll_sendBits {n : Nat} (hn : 0 < n) (v : Nat) (s : State) :
    s.emitAll (sendBitsEvents v n) =
      { s with
        lines := { data := false, wr := false, cs := s.lines.cs }
        receiver := { frame := s.receiver.frame.map fun old => old ++ bitsMsb n v, nib := s.receiver.nib }
        trace := s.trace ++ sendBitsEvents v n } := by
  have hne : bitsMsb n v ≠ [] := by
    intro h; have := congrArg List.length h; simp at this; omega
  unfold sendBitsEvents
  rw [emitAll_append, emitAll_bits]
  simp [hne, State.emit, Receiver.sense]

theorem sendBitsEvents_length (v n : Nat) : (sendBitsEvents v n).length = 3 * n + 1 := by
  have h : ∀ bits : List Bool, (bits.flatMap bitEvents).length = 3 * bits.length := by
    intro bits
    induction bits with
    | nil => rfl
    | cons b bs ih => simp only [List.flatMap_cons, List.length_append, ih, List.length_cons]; simp [bitEvents]; omega
  simp [sendBitsEvents, h]

/-- A command frame: twelve bits received, no cell written, the lines idle (R162, R72). -/
theorem emitAll_frameCmd (c : Byte) (s : State) :
    s.emitAll (frameCmdEvents c.toNat) =
      { s with
        lines := Lines.idle
        receiver := { frame := none, nib := s.receiver.nib }
        trace := s.trace ++ frameCmdEvents c.toNat } := by
  unfold frameCmdEvents
  rw [emitAll_append, emitAll_append, emitAll_append, emitAll_sendBits (n := cmdBits) (by decide),
    emitAll_sendBits (n := 4) (by decide)]
  have h := decodeWire_frameCmd c
  unfold frameCmdBits at h
  simp [State.emit, Receiver.sense, Receiver.close, h, Lines.idle]

/-- The bits SEND_BITS sends for a truncated value are those of the value itself (R160). -/
theorem bitsMsb_mod (n v : Nat) : bitsMsb n (v % 2 ^ n) = bitsMsb n v := by
  have h : ∀ m w u : Nat, (∀ k < m, w.testBit k = u.testBit k) → bitsMsb m w = bitsMsb m u := by
    intro m
    induction m with
    | zero => intros; rfl
    | succ m ih => intro w u hk; simp only [bitsMsb]; rw [hk m (by omega), ih w u fun k hm => hk k (by omega)]
  exact h n _ _ fun k hk => by simp [Nat.testBit_mod_two_pow, hk]

/-- A write frame: `NIB[a] <- d` with both fields truncated, the lines idle (R163, R72, R106, R107). -/
theorem emitAll_frameWr (a nib : Nat) (s : State) :
    s.emitAll (frameWrEvents a nib) =
      { s with
        lines := Lines.idle
        receiver := { frame := none, nib := Nib.write (a % 64) (BitVec.ofNat 4 nib) s.receiver.nib }
        trace := s.trace ++ frameWrEvents a nib } := by
  unfold frameWrEvents
  rw [emitAll_append, emitAll_append, emitAll_append, emitAll_append, emitAll_sendBits (n := nibBits) (by decide),
    emitAll_sendBits (n := addrBits) (by decide), emitAll_sendBits (n := 3) (by decide)]
  have h := decodeWire_frameWr (BitVec.ofNat 6 a) (BitVec.ofNat 4 nib)
  unfold frameWrBits at h
  have ha := bitsMsb_mod 6 a
  have hd := bitsMsb_mod 4 nib
  simp only [BitVec.toNat_ofNat, ha, hd, List.append_assoc] at h
  simp [State.emit, Receiver.sense, Receiver.close, h, Lines.idle]

theorem frameCmdEvents_length (c : Nat) : (frameCmdEvents c).length = 40 := by
  simp [frameCmdEvents, sendBitsEvents_length, cmdBits]

theorem frameWrEvents_length (a nib : Nat) : (frameWrEvents a nib).length = 44 := by
  simp [frameWrEvents, sendBitsEvents_length, addrBits, nibBits]

theorem writeRegisterEvents_length (addr : Nat) (data : Half) : (writeRegisterEvents addr data).length = 220 := by
  simp [writeRegisterEvents, List.range, List.range.loop, frameWrEvents_length]

theorem writeRunEvents_length (start : Nat) (ps : List Half) :
    (writeRunEvents start ps).length = 220 * ps.length := by
  induction ps generalizing start with
  | nil => rfl
  | cons p ps ih => simp only [writeRunEvents, List.length_append, writeRegisterEvents_length, ih, List.length_cons]; omega

/-- The five cells one WRITE_REGISTER writes, in order (R77, R163): the nibbles of the data, then 0. -/
def writeRegisterNib (addr : Nat) (data : Half) (m : Nib) : Nib :=
  Nib.write (4 * addr + 4) 0
    (Nib.write (4 * addr + 3) (data.extractLsb' 0 4)
      (Nib.write (4 * addr + 2) (data.extractLsb' 4 4)
        (Nib.write (4 * addr + 1) (data.extractLsb' 8 4) (Nib.write (4 * addr) (data.extractLsb' 12 4) m))))

/-- `nib_0 .. nib_4` (R107). -/
theorem subNib_eq (data : Half) :
    BitVec.ofNat 4 (subNib data 0) = data.extractLsb' 12 4 ∧ BitVec.ofNat 4 (subNib data 1) = data.extractLsb' 8 4 ∧
    BitVec.ofNat 4 (subNib data 2) = data.extractLsb' 4 4 ∧ BitVec.ofNat 4 (subNib data 3) = data.extractLsb' 0 4 ∧
    BitVec.ofNat 4 (subNib data 4) = 0 := by
  have h := data.isLt
  refine ⟨?_, ?_, ?_, ?_, ?_⟩ <;> apply BitVec.eq_of_toNat_eq <;>
    simp [subNib, Nat.shiftLeft_eq, Nat.shiftRight_eq_div_pow] <;> omega

/-- WRITE_REGISTER on the receiver (R163, R164). -/
theorem emitAll_writeRegister {addr : Nat} (h : addr ≤ 11) (data : Half) (s : State) :
    s.emitAll (writeRegisterEvents addr data) =
      { s with
        lines := Lines.idle
        receiver := { frame := none, nib := writeRegisterNib addr data s.receiver.nib }
        trace := s.trace ++ writeRegisterEvents addr data } := by
  obtain ⟨h0, h1, h2, h3, h4⟩ := subNib_eq data
  have e : writeRegisterEvents addr data =
      frameWrEvents (subAddr addr 0) (subNib data 0) ++ frameWrEvents (subAddr addr 1) (subNib data 1) ++
      frameWrEvents (subAddr addr 2) (subNib data 2) ++ frameWrEvents (subAddr addr 3) (subNib data 3) ++
      frameWrEvents (subAddr addr 4) (subNib data 4) := by
    simp [writeRegisterEvents, List.range, List.range.loop]
  rw [e]
  simp only [emitAll_append, emitAll_frameWr, h0, h1, h2, h3, h4, subAddr]
  have m0 : (4 * addr + 0) % 64 = 4 * addr := by omega
  have m1 : (4 * addr + 1) % 64 = 4 * addr + 1 := by omega
  have m2 : (4 * addr + 2) % 64 = 4 * addr + 2 := by omega
  have m3 : (4 * addr + 3) % 64 = 4 * addr + 3 := by omega
  have m4 : (4 * addr + 4) % 64 = 4 * addr + 4 := by omega
  simp only [m0, m1, m2, m3, m4, writeRegisterNib, List.append_assoc]

end Sys2Proof.Machine
end

