-- ==== Sys2Proof/Laws/Digits.lean ====
section
/-! SUPPORT. The characters PRINT_INTEGER writes are digits, and every digit has a glyph (spec/42_display.md R199,
spec/40_tables.md R131). -/

namespace Sys2Proof.Machine

theorem decimalDigits_lt {fuel n d : Nat} (h : d ∈ decimalDigits fuel n) : d < 10 := by
  induction fuel generalizing n with
  | zero => simp [decimalDigits] at h
  | succ fuel ih =>
    simp only [decimalDigits, List.mem_cons] at h
    rcases h with rfl | h
    · omega
    · split at h
      · simp at h
      · exact ih h

theorem digits_lt {n d : Nat} (h : d ∈ digits n) : d < 10 :=
  decimalDigits_lt h

theorem digits_ne_nil (n : Nat) : digits n ≠ [] := by
  simp [digits, decimalDigits]

theorem str10_reverse (n : Nat) : (str10 n).reverse = (digits n).map digitChar := by
  simp [str10]

theorem str10_length (n : Nat) : (str10 n).length = (digits n).length := by
  simp [str10]

/-- The glyph of a decimal digit is `GLYPH[6 + d]` (R132, R199). -/
theorem charPattern_digit (cfg : Config) {d : Nat} (h : d < 10) :
    charPattern cfg (digitChar d) = some (cfg.glyph[6 + d]'(by omega)) := by
  have hn : (digitChar d).toNat = 0x30 + d := by simp [digitChar]; omega
  have h1 : ¬ (0x30 + d = 0x20) := by omega
  have h2 : 0x2A ≤ 0x30 + d ∧ 0x30 + d ≤ 0x39 := by omega
  have hi : 0x30 + d - 0x2A = 6 + d := by omega
  simp only [charPattern, glyphIndex, hn, h1, if_false, h2, hi, dif_pos, and_self]
  rfl

/-- The patterns of a list of digits. -/
theorem charPatterns_digits (cfg : Config) {ds : List Nat} (h : ∀ d ∈ ds, d < 10) :
    ∃ ps, charPatterns cfg (ds.map digitChar) = some ps ∧
      ∀ (k : Nat) (hk : k < ds.length), ps[k]? = some (cfg.glyph[6 + ds[k]]'(by have := h ds[k] (List.getElem_mem hk); omega)) := by
  induction ds with
  | nil => exact ⟨[], rfl, fun k hk => by simp at hk⟩
  | cons d ds ih =>
    obtain ⟨ps, hps, hget⟩ := ih fun e he => h e (List.mem_cons_of_mem d he)
    refine ⟨cfg.glyph[6 + d]'(by have := h d (by simp); omega) :: ps, ?_, ?_⟩
    · simp only [List.map_cons, charPatterns, charPattern_digit cfg (h d (by simp)), hps]
    · intro k hk
      cases k with
      | zero => simp
      | succ k => simpa using hget k (by simpa using hk)

theorem decimalDigits_eq {fuel n : Nat} (h : n < 10 ^ fuel) (hf : 0 < fuel) :
    decimalDigits fuel n = if n = 0 then [0] else Nat.digits 10 n := by
  induction fuel generalizing n with
  | zero => omega
  | succ fuel ih =>
    rw [decimalDigits]
    by_cases h0 : n = 0
    · subst h0; simp
    · rw [if_neg h0, Nat.digits_def' (by norm_num) (by omega)]
      congr 1
      split_ifs with h1
      · rw [Nat.div_eq_of_lt h1]; simp
      · have hpos : 0 < fuel := by
          by_contra hc
          obtain rfl : fuel = 0 := by omega
          simp at h
          omega
        rw [pow_succ] at h
        rw [ih ((Nat.div_lt_iff_lt_mul (by norm_num)).mpr h) hpos, if_neg (by omega)]

/-- The digits are those of the library, but for 0, whose text is "0" (R198). -/
theorem digits_eq (n : Nat) : digits n = if n = 0 then [0] else Nat.digits 10 n :=
  decimalDigits_eq (Nat.lt_log2_self.trans_le (Nat.pow_le_pow_left (by norm_num) _)) (by omega)

/-- The patterns of a string, when every character has one (R201). -/
theorem charPatterns_eq_some {cfg : Config} {text : List Byte} {ps : List Half} :
    charPatterns cfg text = some ps ↔ text.map (charPattern cfg) = ps.map some := by
  induction text generalizing ps with
  | nil => cases ps <;> simp [charPatterns]
  | cons c cs ih =>
    simp only [charPatterns, List.map_cons]
    split
    · next p qs hp hq =>
      rw [ih] at hq
      rw [hp, hq]
      constructor
      · intro h; cases h; simp
      · intro h
        cases ps with
        | nil => simp at h
        | cons a b => simp at h; rw [h.1, List.map_injective_iff.mpr (Option.some_injective _) h.2]
    · next hn =>
      simp only [reduceCtorEq, false_iff]
      intro h
      cases ps with
      | nil => simp at h
      | cons a b => simp at h; exact hn a b h.1 (ih.mpr h.2)

end Sys2Proof.Machine
end

