-- ==== Sys2Proof/Laws/Sequencer.lean ====
section
/-! SUPPORT. What the sequencer does (spec/10_state.md R35): every step from a state that is not IDLE, and the run of an
accepted operation through its whole event sequence. -/

namespace Sys2Proof.Machine

/-- The end of an operation does not depend on how far SEQ had counted. -/
theorem finish_seq (op : Instr) (q : Seq) (s : State) : State.finish op { s with seq := q } = s.finish op := by
  cases op <;> rfl

/-- The events do not depend on SEQ. -/
theorem emitAll_seq_update (es : List Event) (q : Seq) (s : State) :
    State.emitAll es { s with seq := q } = { s.emitAll es with seq := q } := by
  induction es generalizing s with
  | nil => rfl
  | cons e es ih =>
    have h : State.emit e { s with seq := q } = { s.emit e with seq := q } := by cases e <;> rfl
    rw [emitAll_cons, h, ih, emitAll_cons]

/-- An event changes the lines, the receiver and the trace only (00_scope.md R12). -/
theorem emit_frame (e : Event) (s : State) :
    s.emit e = { s with lines := (s.emit e).lines, receiver := (s.emit e).receiver, trace := s.trace ++ [e] } := by
  cases e <;> rfl

/-- The end of an operation changes SEQ, RESULT, LAST_POS and VALUE only; it leaves SEQ IDLE or in the delay, and VALUE
not negative if it was not. -/
theorem finish_frame (op : Instr) (s : State) :
    s.finish op =
      { s with
        lastPos := (s.finish op).lastPos
        value := (s.finish op).value
        seq := (s.finish op).seq
        result := (s.finish op).result } ∧
      ((s.finish op).seq = .idle ∨ (s.finish op).seq = .debounce) ∧ (0 ≤ s.value → 0 ≤ (s.finish op).value) := by
  cases op <;> refine ⟨rfl, by first | exact .inl rfl | exact .inr rfl, fun h => ?_⟩ <;>
    first | exact h | exact le_max_left _ _

theorem step_busy {s : State} {op : Instr} {k : Nat} (h : s.seq = .busy op k) : step s = .next (s.busyStep op k) := by
  simp [step, h]

theorem step_debounce {s : State} (h : s.seq = .debounce) : step s = .next s.debounceStep := by
  simp [step, h]

theorem step_waitRelease {s : State} {n : Nat} (h : s.seq = .waitRelease n) : step s = .next (s.pollStep n) := by
  simp [step, h]

/-- From BUSY(op, k) with `m` events left, `m` steps emit them and end the operation. -/
theorem busy_drain {op : Instr} {s : State} {es : List Event} (hes : opEvents s.cfg s.speed op = es) {k m : Nat}
    (hlen : k + m = es.length) (hm : 0 < m) (hseq : s.seq = .busy op k) :
    runSteps m s = .next ((s.emitAll (es.drop k)).finish op) := by
  induction m generalizing s k with
  | zero => omega
  | succ m ih =>
    have hk : k < es.length := by omega
    have hget : es[k]? = some es[k] := List.getElem?_eq_getElem hk
    rw [runSteps, step_busy hseq]
    simp only [State.busyStep, hes, hget]
    rw [List.drop_eq_getElem_cons hk, emitAll_cons]
    by_cases hlast : k + 1 < es.length
    · rw [if_pos hlast]
      rw [ih (s := { s.emit es[k] with seq := .busy op (k + 1) }) (k := k + 1) (by simp [hes]) (by omega) (by omega) rfl,
        emitAll_seq_update, finish_seq]
    · have hm0 : m = 0 := by omega
      subst hm0
      rw [if_neg hlast, List.drop_eq_nil_of_le (by omega)]
      rfl

/-- From BUSY(op, k), `m` steps that leave an event emit the next `m` events (R35). -/
theorem busy_prefix {op : Instr} {s : State} {es : List Event} (hes : opEvents s.cfg s.speed op = es) {k m : Nat}
    (hlen : k + m < es.length) (hseq : s.seq = .busy op k) :
    runSteps m s = .next { s.emitAll ((es.drop k).take m) with seq := .busy op (k + m) } := by
  induction m generalizing s k with
  | zero => simp [runSteps, ← hseq]
  | succ m ih =>
    have hk : k < es.length := by omega
    have hget : es[k]? = some es[k] := List.getElem?_eq_getElem hk
    rw [runSteps, step_busy hseq]
    simp only [State.busyStep, hes, hget]
    rw [List.drop_eq_getElem_cons hk, List.take_succ_cons, emitAll_cons, if_pos (by omega)]
    rw [ih (s := { s.emit es[k] with seq := .busy op (k + 1) }) (k := k + 1) (by simp [hes]) (by omega) rfl,
      emitAll_seq_update]
    simp [Nat.add_comm, Nat.add_left_comm]

/-- An accepted operation with a non-empty event sequence runs to its end in one step per event (R35, R168). -/
theorem accept_runs {op : Instr} {s : State} {es : List Event} (hes : opEvents s.cfg s.speed op = es) (hne : es ≠ []) :
    runSteps es.length (s.accept op) = .next ((s.emitAll es).finish op) := by
  have hpos : 0 < es.length := List.length_pos_iff.mpr hne
  rw [busy_drain (op := op) (es := es) (k := 0) (m := es.length) (by simpa using hes) (by omega) hpos rfl,
    List.drop_zero, State.accept, emitAll_seq_update, finish_seq]

/-- Runs compose. -/
theorem runSteps_add {m n : Nat} {s t : State} (h : runSteps m s = .next t) : runSteps (m + n) s = runSteps n t := by
  induction m generalizing s with
  | zero => simp only [runSteps, Host.Outcome.next.injEq] at h; subst h; simp
  | succ m ih =>
    rw [Nat.succ_add, runSteps]
    rw [runSteps] at h
    split at h
    · next t' ht => exact ih h
    · cases h
    · cases h

/-- What a step can be, from any state (R35, R290): the acceptance of an operation, waiting, the next event, the end of
the delay, a poll; or a word that is no operation word. -/
theorem step_cases (s : State) :
    (∃ i t, s.seq = .idle ∧ s.fetch = some (.ok i, t) ∧ step s = exec i t) ∨
    (∃ e t, s.seq = .idle ∧ s.fetch = some (.error e, t) ∧ step s = .refused (.badWord e)) ∨
    (s.seq = .idle ∧ s.fetch = none ∧ step s = .next s) ∨
    (∃ op k, s.seq = .busy op k ∧ step s = .next (s.busyStep op k)) ∨
    (s.seq = .debounce ∧ step s = .next s.debounceStep) ∨
    (∃ n, s.seq = .waitRelease n ∧ step s = .next (s.pollStep n)) := by
  cases hq : s.seq with
  | busy op k => exact .inr (.inr (.inr (.inl ⟨op, k, rfl, step_busy hq⟩)))
  | debounce => exact .inr (.inr (.inr (.inr (.inl ⟨rfl, step_debounce hq⟩))))
  | waitRelease n => exact .inr (.inr (.inr (.inr (.inr ⟨n, rfl, step_waitRelease hq⟩))))
  | idle =>
    rcases hf : s.fetch with _ | ⟨_ | i, t⟩
    · exact .inr (.inr (.inl ⟨rfl, rfl, by simp [step, hq, hf]⟩))
    · exact .inr (.inl ⟨_, _, rfl, rfl, by simp [step, hq, hf]⟩)
    · exact .inl ⟨_, _, rfl, rfl, by simp [step, hq, hf]⟩

/-- What taking an operation from the port or the issue latch changes: nothing but those two. -/
theorem fetch_frame {s t : State} {r : Except DecodeError Instr} (h : s.fetch = some (r, t)) :
    ∃ port issue, t = { s with port := port, issue := issue } := by
  unfold State.fetch at h
  split at h
  · simp only [Option.some.injEq, Prod.mk.injEq] at h; exact ⟨s.port, none, h.2.symm⟩
  · split at h
    · next rest _ => simp only [Option.some.injEq, Prod.mk.injEq] at h; exact ⟨rest, s.issue, h.2.symm⟩
    · cases h

/-- What the acceptance of an operation can do (R35, R284): begin its event sequence, or end it at once; and it changes
nothing but SEQ, RESULT, the drawn pulse count and the environment's supply (ENCODER_MOVE), and SPEED (BUTTON_PRESS). -/
theorem exec_cases (i : Instr) (s : State) :
    ∃ t, exec i s = .next t ∧
      ((t = s.accept i ∧ i ≠ .buttonPress ∧ (∀ p, i ≠ .encoderMove p)) ∨
       (i = .buttonPress ∧ t = State.accept .buttonPress { s with speed := s.speed.next }) ∨
       (∃ p, i = .encoderMove p ∧ checkEncoderMove p s.drawnPulse s = .ok ∧
          t = State.accept i { s.afterPulse with rotspeed := s.drawnPulse }) ∨
       (∃ p e, i = .encoderMove p ∧ checkEncoderMove p s.drawnPulse s = e ∧ e ≠ .ok ∧ t = s.afterPulse.raise e) ∨
       (∃ v, t = s.complete v ∧ i ≠ .buttonPress ∧ (∀ p, i ≠ .encoderMove p)) ∨
       (∃ e, e ≠ .ok ∧ t = s.raise e ∧ i ≠ .buttonPress ∧ (∀ p, i ≠ .encoderMove p))) := by
  cases i with
  | setDp pos =>
    simp only [exec, execSetDp]
    split <;> simp only [Host.Outcome.next.injEq, exists_eq_left'] <;> simp
    exact .inr (.inl ⟨_, rfl⟩)
  | printInteger n =>
    simp only [exec, execPrintInteger]
    split <;> simp
    exact .inr (.inr ⟨_, ‹_›, rfl⟩)
  | printChar index c =>
    simp only [exec, execPrintChar]
    split <;> simp
    exact .inr (.inr ⟨_, ‹_›, rfl⟩)
  | printText text =>
    simp only [exec, execPrintText]
    split
    · split <;> simp
      exact .inr (.inl ⟨_, rfl⟩)
    · simp
      exact .inr (.inr ⟨_, ‹_›, rfl⟩)
  | writeRegister addr data =>
    simp only [exec, execWriteRegister]
    split <;> simp
    exact .inr (.inr ⟨_, ‹_›, rfl⟩)
  | lookupGlyph c =>
    simp only [exec, execLookupGlyph, checkLookupGlyph]
    cases charPattern s.cfg c <;> simp
    · exact .inr (.inr ⟨_, by simp, rfl⟩)
    · exact .inr (.inl ⟨_, rfl⟩)
  | lookupDp pos =>
    simp only [exec, execLookupDp]
    split <;> simp
    · exact .inr (.inl ⟨_, rfl⟩)
    · exact .inr (.inl ⟨_, rfl⟩)
  | encoderMove p =>
    simp only [exec, execEncoderMove]
    split <;> simp_all
  | reserved opcode =>
    simp only [exec, execReserved]
    simp
    exact .inr (.inr ⟨_, by simp, rfl⟩)
  | _ => simp [exec, execInit, execPowerOff, execPowerOn, execClear, execFill, execClearDp, execSendCommand,
      execButtonPress, execSendBits, execFrameCmd, execFrameWr]

theorem charPatterns_length {cfg : Config} {text : List Byte} {ps : List Half} (h : charPatterns cfg text = some ps) :
    ps.length = text.length := by
  induction text generalizing ps with
  | nil => simp only [charPatterns, Option.some.injEq] at h; subst h; rfl
  | cons c cs ih =>
    simp only [charPatterns] at h
    split at h
    · next p qs _ hq => simp only [Option.some.injEq] at h; subst h; simp [ih hq]
    · cases h

theorem writeRegisterEvents_ne (addr : Nat) (data : Half) : writeRegisterEvents addr data ≠ [] := by
  intro h; have := congrArg List.length h; simp [writeRegisterEvents_length] at this

theorem clearEvents_length : clearEvents.length = 2640 := by
  simp [clearEvents, writeRunEvents_length, numRegs]

theorem fillEvents_length : fillEvents.length = 2640 := by
  simp [fillEvents, writeRunEvents_length, numRegs]

/-- The unit strings are in the alphabet, so their patterns exist (R261). -/
theorem unitStr_patterns (cfg : Config) (speed : Speed) : ∃ ps, charPatterns cfg speed.unitStr = some ps := by
  cases speed <;> exact ⟨_, rfl⟩

theorem buttonPressEvents_ne (cfg : Config) (speed : Speed) : buttonPressEvents cfg speed ≠ [] := by
  obtain ⟨ps, hps⟩ := unitStr_patterns cfg speed
  have hlen := charPatterns_length hps
  have hu : 0 < speed.unitStr.length := by cases speed <;> decide
  simp only [buttonPressEvents, printTextEvents, hps]
  apply List.length_pos_iff.mp
  rw [writeRunEvents_length, hlen]
  omega

/-- An operation left in BUSY by its acceptance has an event to emit (R35: one that emits none completes at once). -/
theorem accepted_events_ne {i op : Instr} {k : Nat} {s t : State} (h : exec i s = .next t) (hq : t.seq = .busy op k) :
    op = i ∧ k = 0 ∧ opEvents t.cfg t.speed i ≠ [] := by
  have hlen : ∀ es : List Event, 0 < es.length → es ≠ [] := fun es h => List.length_pos_iff.mp h
  cases i with
  | setDp pos =>
    simp only [exec, execSetDp] at h
    split at h <;> simp only [Host.Outcome.next.injEq] at h <;> subst h <;> simp at hq
    next e he =>
      refine ⟨hq.1.symm, hq.2.symm, ?_⟩
      simp only [opEvents, setDpEvents, accept_cfg, he]
      exact writeRegisterEvents_ne _ _
  | printInteger n =>
    simp only [exec, execPrintInteger] at h
    split at h <;> simp only [Host.Outcome.next.injEq] at h <;> subst h <;> simp at hq
    refine ⟨hq.1.symm, hq.2.symm, ?_⟩
    obtain ⟨ps, hps, -⟩ := charPatterns_digits s.cfg (ds := digits n.toNat) fun d => digits_lt
    simp only [opEvents, printIntegerEvents, accept_cfg, str10_reverse, hps]
    apply hlen
    rw [List.length_append, clearEvents_length]
    omega
  | printChar index c =>
    simp only [exec, execPrintChar] at h
    split at h <;> simp only [Host.Outcome.next.injEq] at h <;> subst h <;> simp at hq
    next hc =>
      refine ⟨hq.1.symm, hq.2.symm, ?_⟩
      have he : ∃ p, charPattern s.cfg c = some p := by
        cases hp : charPattern s.cfg c with
        | some p => exact ⟨p, rfl⟩
        | none => simp only [checkPrintChar, hp] at hc; split at hc <;> cases hc
      obtain ⟨p, hp⟩ := he
      simp only [opEvents, printCharEvents, accept_cfg, hp]
      exact writeRegisterEvents_ne _ _
  | printText text =>
    simp only [exec, execPrintText] at h
    split at h
    · next hc =>
      split at h <;> simp only [Host.Outcome.next.injEq] at h <;> subst h <;> simp at hq
      next hne =>
        refine ⟨hq.1.symm, hq.2.symm, ?_⟩
        simp only [checkPrintText] at hc
        split at hc
        · cases hc
        · split at hc
          · next ps he =>
            simp only [opEvents, printTextEvents, accept_cfg, he]
            apply hlen
            rw [writeRunEvents_length, charPatterns_length he]
            have := List.length_pos_iff.mpr hne
            omega
          · cases hc
    · simp only [Host.Outcome.next.injEq] at h; subst h; simp at hq
  | writeRegister addr data =>
    simp only [exec, execWriteRegister] at h
    split at h <;> simp only [Host.Outcome.next.injEq] at h <;> subst h <;> simp at hq
    exact ⟨hq.1.symm, hq.2.symm, writeRegisterEvents_ne _ _⟩
  | lookupGlyph c =>
    simp only [exec, execLookupGlyph] at h
    split at h <;> simp only [Host.Outcome.next.injEq] at h <;> subst h <;> simp at hq
  | lookupDp pos =>
    simp only [exec, execLookupDp] at h
    split at h <;> simp only [Host.Outcome.next.injEq] at h <;> subst h <;> simp at hq
  | encoderMove p =>
    simp only [exec, execEncoderMove] at h
    split at h <;> simp only [Host.Outcome.next.injEq] at h <;> subst h <;> simp at hq
    exact ⟨hq.1.symm, hq.2.symm, by simp [opEvents, encoderMoveEvents]⟩
  | reserved opcode =>
    simp only [exec, execReserved, Host.Outcome.next.injEq] at h; subst h; simp at hq
  | buttonPress =>
    simp only [exec, execButtonPress, Host.Outcome.next.injEq] at h; subst h; simp at hq
    refine ⟨hq.1.symm, hq.2.symm, ?_⟩
    simp only [opEvents, accept_cfg, accept_speed]
    exact buttonPressEvents_ne _ _
  | sendBits v n =>
    simp only [exec, execSendBits, Host.Outcome.next.injEq] at h; subst h; simp at hq
    exact ⟨hq.1.symm, hq.2.symm, hlen _ (by simp [opEvents, sendBitsEvents_length])⟩
  | _ =>
    simp only [exec, execInit, execPowerOff, execPowerOn, execClear, execFill, execClearDp, execSendCommand,
      execFrameCmd, execFrameWr, Host.Outcome.next.injEq] at h
    subst h; simp at hq
    refine ⟨hq.1.symm, hq.2.symm, hlen _ ?_⟩
    simp [opEvents, initEvents, powerOffEvents, powerOnEvents, clearEvents_length, fillEvents_length, clearDpEvents,
      sendCommandEvents, frameCmdEvents_length, frameWrEvents_length, writeRunEvents_length]

end Sys2Proof.Machine
end

