-- ==== Sys2Proof/Laws/Registers.lean ====
section
/-! SUPPORT. Register writes through the register view (spec/20_memory.md R73, spec/41_protocol.md R164,
spec/70_reset_and_hazards.md R313). -/

namespace Sys2Proof.Machine

/-- A 16-bit value is its four nibbles, the most significant first (R73). -/
theorem half_of_nibbles (data : Half) :
    data.extractLsb' 12 4 ++ data.extractLsb' 8 4 ++ data.extractLsb' 4 4 ++ data.extractLsb' 0 4 = data := by
  apply BitVec.eq_of_getLsbD_eq
  intro i hi
  simp only [BitVec.getLsbD_append, BitVec.getLsbD_extractLsb']
  interval_cases i <;> simp

/-- Every cell after one WRITE_REGISTER (R77, R163). -/
theorem read_writeRegisterNib (addr c : Nat) (data : Half) (m : Nib) :
    Nib.read c (writeRegisterNib addr data m) =
      if c = 4 * addr + 4 then some 0
      else if c = 4 * addr + 3 then some (data.extractLsb' 0 4)
      else if c = 4 * addr + 2 then some (data.extractLsb' 4 4)
      else if c = 4 * addr + 1 then some (data.extractLsb' 8 4)
      else if c = 4 * addr then some (data.extractLsb' 12 4)
      else Nib.read c m := by
  simp only [writeRegisterNib, nib_read_write]

/-- `REG[addr] = data` (R164). -/
theorem reg_writeRegisterNib (addr : Nat) (data : Half) (m : Nib) : (writeRegisterNib addr data m).reg addr = data := by
  simp [Nib.reg, Nib.cell, read_writeRegisterNib, half_of_nibbles]

/-- Bits [15:12] of the next register become 0 and its bits [11:0] are kept (R164, R165). -/
theorem reg_writeRegisterNib_next (addr : Nat) (data : Half) (m : Nib) :
    (writeRegisterNib addr data m).reg (addr + 1) = (0 : Nibble) ++ (m.reg (addr + 1)).extractLsb' 0 12 := by
  have hn : Nib.read (4 * (addr + 1)) (writeRegisterNib addr data m) = some 0 := by
    rw [read_writeRegisterNib, if_pos (by omega)]
  have ho : ∀ c, 4 * addr + 4 < c → Nib.read c (writeRegisterNib addr data m) = Nib.read c m := by
    intro c hc
    rw [read_writeRegisterNib]
    repeat' rw [if_neg (by omega)]
  simp only [Nib.reg, Nib.cell, hn, ho (4 * (addr + 1) + 1) (by omega), ho (4 * (addr + 1) + 2) (by omega),
    ho (4 * (addr + 1) + 3) (by omega)]
  apply BitVec.eq_of_getLsbD_eq
  intro i hi
  simp only [BitVec.getLsbD_append, BitVec.getLsbD_extractLsb']
  interval_cases i <;> simp

/-- The cells of a run of register writes. -/
def writeRunNib : (start : Nat) → List Half → Nib → Nib
  | _, [], m => m
  | start, p :: ps, m => writeRunNib (start + 1) ps (writeRegisterNib start p m)

/-- A run of register writes on the receiver. -/
theorem emitAll_writeRun {start : Nat} {ps : List Half} (h : start + ps.length ≤ 12) (hne : ps ≠ []) (s : State) :
    s.emitAll (writeRunEvents start ps) =
      { s with
        lines := Lines.idle
        receiver := { frame := none, nib := writeRunNib start ps s.receiver.nib }
        trace := s.trace ++ writeRunEvents start ps } := by
  induction ps generalizing start s with
  | nil => exact absurd rfl hne
  | cons p ps ih =>
    simp only [List.length_cons] at h
    rw [writeRunEvents, emitAll_append, emitAll_writeRegister (by omega)]
    cases ps with
    | nil => simp [writeRunEvents, writeRunNib]
    | cons q qs =>
      rw [ih (by simpa using (by simp at h; omega)) (by simp)]
      simp [writeRunNib]

/-- A run leaves every cell outside its registers and the spill alone. -/
theorem read_writeRun_outside {start : Nat} {ps : List Half} {c : Nat} (h : c < 4 * start ∨ 4 * (start + ps.length) < c)
    (m : Nib) : Nib.read c (writeRunNib start ps m) = Nib.read c m := by
  induction ps generalizing start m with
  | nil => rfl
  | cons p ps ih =>
    simp only [List.length_cons] at h
    rw [writeRunNib, ih (by omega), read_writeRegisterNib]
    repeat' rw [if_neg (by omega)]

/-- The fifth sub-write of the last register of a run (R165, R313). -/
theorem read_writeRun_spill {start : Nat} {ps : List Half} (hne : ps ≠ []) (m : Nib) :
    Nib.read (4 * (start + ps.length)) (writeRunNib start ps m) = some 0 := by
  induction ps generalizing start m with
  | nil => exact absurd rfl hne
  | cons p ps ih =>
    rw [writeRunNib]
    cases ps with
    | nil => rw [writeRunNib, read_writeRegisterNib, if_pos (by simp; omega)]
    | cons q qs =>
      have := ih (start := start + 1) (by simp) (writeRegisterNib start p m)
      rw [← this]
      congr 1
      simp; omega

/-- Each register of a run holds its pattern. -/
theorem reg_writeRun {start j : Nat} {ps : List Half} (hj : j < ps.length) (m : Nib) :
    (writeRunNib start ps m).reg (start + j) = ps[j] := by
  induction ps generalizing start j m with
  | nil => simp at hj
  | cons p ps ih =>
    rw [writeRunNib]
    cases j with
    | zero =>
      have h : (writeRunNib (start + 1) ps (writeRegisterNib start p m)).reg start =
          (writeRegisterNib start p m).reg start := by
        simp only [Nib.reg, Nib.cell]
        repeat' rw [read_writeRun_outside (by omega)]
      exact h.trans (reg_writeRegisterNib start p m)
    | succ j =>
      have := ih (start := start + 1) (j := j) (by simpa using hj) (writeRegisterNib start p m)
      rw [List.getElem_cons_succ, ← this]
      congr 1
      omega

end Sys2Proof.Machine
end

