-- ==== Sys2Proof/Laws/Frames.lean ====
section
/-! SUPPORT. The forms the claims use beside those of the machine: bits counted down (spec/41_protocol.md R160), frames
as the receiver sees them close (spec/20_memory.md R71, R74). -/

namespace Sys2Proof.Machine

/-- The bits sent are `v[n-1]` down to `v[0]` (R160, R74). -/
theorem bitsMsb_eq_lowBits (n v : Nat) : bitsMsb n v = lowBits v n := by
  induction n with
  | zero => rfl
  | succ n ih => simp [bitsMsb, ih, lowBits, List.range_succ]

/-- The events of SEND_BITS are those R160 writes. -/
theorem sendBitsEvents_eq (v n : Nat) : sendBitsEvents v n = bitByBit v n := by
  rw [sendBitsEvents, bitByBit, bitsMsb_eq_lowBits, lowBits, List.flatMap_map]
  rfl

/-- A command frame is as R162 writes it. -/
theorem sendCommandEvents_eq (cmd : Byte) : sendCommandEvents cmd = commandFrame cmd := by
  simp [sendCommandEvents, frameCmdEvents, commandFrame, sendBitsEvents_eq]

/-- A register write is as R163 writes it. -/
theorem writeRegisterEvents_eq (addr : Nat) (data : Half) : writeRegisterEvents addr data = registerWrite addr data := by
  simp [writeRegisterEvents, registerWrite, frameWrEvents, sendBitsEvents_eq, subAddr, subNib]

/-- A run of register writes, one for each pattern from register `start` on. -/
theorem writeRunEvents_eq (start : Nat) (ps : List Half) :
    writeRunEvents start ps = (List.range ps.length).flatMap fun j => registerWrite (start + j) (ps.getD j 0) := by
  induction ps generalizing start with
  | nil => rfl
  | cons p ps ih =>
    rw [writeRunEvents, ih, List.length_cons, List.range_succ_eq_map]
    simp [writeRegisterEvents_eq, List.flatMap_map, Nat.add_comm, Nat.add_left_comm]

/-- A frame that closes is no longer open. -/
@[simp] theorem receiver_close_frame (bits : List Bool) (r : Receiver) : (r.close bits).frame = none := by
  unfold Receiver.close
  split <;> rfl

/-- The frames of two event lists, one after the other: the second begins where the first leaves the receiver. -/
theorem closedFrames_append (s : State) (es fs : List Event) :
    closedFrames s.lines.data s.receiver.frame (es ++ fs) =
      closedFrames s.lines.data s.receiver.frame es ++
        closedFrames (s.emitAll es).lines.data (s.emitAll es).receiver.frame fs := by
  induction es generalizing s with
  | nil => simp [closedFrames]
  | cons e es ih =>
    rw [emitAll_cons, List.cons_append]
    have h := ih (s.emit e)
    rcases e with ⟨l, v⟩ | _
    · cases l <;> cases v <;> cases hf : s.receiver.frame <;>
        simp_all [closedFrames, State.emit, Receiver.sense, Lines.set]
    · exact h

/-- SEND_BITS closes no frame; the bits it sends reach the frame that is open. -/
theorem closedFrames_sendBits (d : Bool) (f : Option (List Bool)) (v n : Nat) (rest : List Event) :
    closedFrames d f (sendBitsEvents v n ++ rest) = closedFrames false (f.map fun old => old ++ bitsMsb n v) rest := by
  have h : ∀ (bits : List Bool) (d : Bool) (f : Option (List Bool)),
      closedFrames d f (bits.flatMap bitEvents ++ [.setLine .data false] ++ rest) =
      closedFrames false (f.map fun old => old ++ bits) rest := by
    intro bits
    induction bits with
    | nil => intro d f; cases f <;> simp [closedFrames]
    | cons b bs ih =>
      intro d f
      simp only [List.flatMap_cons, bitEvents, List.cons_append, List.nil_append, closedFrames]
      rw [List.append_assoc] at ih
      rw [List.append_assoc, ih]
      cases f <;> simp
  exact h _ d f

/-- A command frame closes with its twelve bits (R101, R162). -/
theorem closedFrames_frameCmd (d : Bool) (f : Option (List Bool)) (c : Byte) (rest : List Event) :
    closedFrames d f (frameCmdEvents c.toNat ++ rest) = frameCmdBits c :: closedFrames false none rest := by
  simp only [frameCmdEvents, List.append_assoc, List.cons_append, List.nil_append, closedFrames, closedFrames_sendBits]
  rfl

/-- A write frame closes with its thirteen bits (R102, R163). -/
theorem closedFrames_frameWr (d : Bool) (f : Option (List Bool)) (a nib : Nat) (rest : List Event) :
    closedFrames d f (frameWrEvents a nib ++ rest) =
      frameWrBits (BitVec.ofNat 6 a) (BitVec.ofNat 4 nib) :: closedFrames false none rest := by
  simp only [frameWrEvents, List.append_assoc, List.cons_append, List.nil_append, closedFrames, closedFrames_sendBits]
  simp only [frameWrBits, BitVec.toNat_ofNat, bitsMsb_mod]
  simp

/-- A register write closes five frames (R163, R165). -/
theorem closedFrames_writeRegister (d : Bool) (f : Option (List Bool)) (addr : Nat) (data : Half) (rest : List Event) :
    closedFrames d f (writeRegisterEvents addr data ++ rest) =
      (List.range 5).map (fun i => frameWrBits (BitVec.ofNat 6 (subAddr addr i)) (BitVec.ofNat 4 (subNib data i)))
        ++ closedFrames false none rest := by
  simp [writeRegisterEvents, List.range, List.range.loop, closedFrames_frameWr]

/-- Bits sent while CS is low keep the frame discipline (R166). -/
theorem wrOnlyInBracket_sendBits (cs : Bool) (v n : Nat) (rest : List Event) (h : cs = false) :
    wrOnlyInBracket cs (sendBitsEvents v n ++ rest) = wrOnlyInBracket cs rest := by
  subst h
  have h : ∀ bits : List Bool, wrOnlyInBracket false (bits.flatMap bitEvents ++ [.setLine .data false] ++ rest) =
      wrOnlyInBracket false rest := by
    intro bits
    induction bits with
    | nil => simp [wrOnlyInBracket]
    | cons b bs ih =>
      simp only [List.flatMap_cons, bitEvents, List.cons_append, List.nil_append, wrOnlyInBracket]
      rw [List.append_assoc] at ih
      rw [List.append_assoc, ih]
      rfl
  exact h _

theorem wrOnlyInBracket_frameCmd (cs : Bool) (c : Nat) (rest : List Event) :
    wrOnlyInBracket cs (frameCmdEvents c ++ rest) = wrOnlyInBracket true rest := by
  simp [frameCmdEvents, wrOnlyInBracket, wrOnlyInBracket_sendBits]

theorem wrOnlyInBracket_frameWr (cs : Bool) (a nib : Nat) (rest : List Event) :
    wrOnlyInBracket cs (frameWrEvents a nib ++ rest) = wrOnlyInBracket true rest := by
  simp [frameWrEvents, wrOnlyInBracket, wrOnlyInBracket_sendBits]

theorem wrOnlyInBracket_writeRegister (cs : Bool) (addr : Nat) (data : Half) (rest : List Event) :
    wrOnlyInBracket cs (writeRegisterEvents addr data ++ rest) = wrOnlyInBracket true rest := by
  simp [writeRegisterEvents, List.range, List.range.loop, wrOnlyInBracket_frameWr]

/-- An operation accepted with the event sequence `es`, which leaves the lines idle and the display memory `m`, ends
after one step per event (R35). -/
theorem busy_endsAfter {op : Instr} {s : State} {es : List Event} {m : Nib}
    (hes : opEvents s.cfg s.speed op = es) (hne : es ≠ [])
    (hem : s.emitAll es =
      { s with lines := Lines.idle, receiver := { frame := none, nib := m }, trace := s.trace ++ es })
    (hfin : ∀ t : State, t.finish op = t.complete none) :
    ∃ u, runSteps es.length { s with seq := .busy op 0 } = .next u ∧ EndsAfter es s u ∧ u.receiver.nib = m := by
  have h := accept_runs hes hne
  rw [State.accept, hfin, hem] at h
  exact ⟨_, h, rfl, rfl⟩

/-- A run of register writes ends after 220 steps per register, each holding its pattern (R163, R164). -/
theorem busy_writeRun {op : Instr} {s : State} {start : Nat} {ps : List Half}
    (hes : opEvents s.cfg s.speed op = writeRunEvents start ps) (h12 : start + ps.length ≤ 12) (hne : ps ≠ [])
    (hfin : ∀ t : State, t.finish op = t.complete none) :
    ∃ u, runSteps (220 * ps.length) { s with seq := .busy op 0 } = .next u ∧
      EndsAfter (writeRunEvents start ps) s u ∧ u.receiver.nib = writeRunNib start ps s.receiver.nib := by
  have hlen := writeRunEvents_length start ps
  rw [← hlen]
  refine busy_endsAfter hes ?_ (emitAll_writeRun h12 hne s) hfin
  intro h
  rw [h, List.length_nil] at hlen
  exact hne (List.length_eq_zero_iff.mp (by omega))

end Sys2Proof.Machine
end

