-- ==== Sys2Proof/Laws/PerInstr.lean ====
section
/-! SUPPORT. What is said of every instruction as syntax: the format its word has on the port or on the wire
(spec/30_encoding.md R100, R103). -/

namespace Sys2Proof.Laws.EncodedForm

/-- The format a word is in. A reader of the wire tells the two frames apart by their third bit and their length
(R103). -/
def formatOf : Word → Option Format
  | .host _ => some .host
  | .internal (.micro _ _) => some .micro
  | .internal (.wire (true :: false :: false :: rest)) => if rest.length = 9 then some .wireCmd else none
  | .internal (.wire (true :: false :: true :: rest)) => if rest.length = 10 then some .wireWr else none
  | .internal (.wire _) => none

/-- The word of an instruction is in the format its row of the opcode table names. -/
def Statement (i : Instr) : Prop :=
  formatOf (encode i) = some i.format

theorem init : Statement .init := rfl
theorem powerOff : Statement .powerOff := rfl
theorem powerOn : Statement .powerOn := rfl
theorem clear : Statement .clear := rfl
theorem fill : Statement .fill := rfl
theorem setDp (pos : Int) : Statement (.setDp pos) := rfl
theorem clearDp : Statement .clearDp := rfl
theorem printInteger (n : Int) : Statement (.printInteger n) := rfl
theorem printChar (index : Int) (c : Byte) : Statement (.printChar index c) := rfl
theorem printText (s : List Byte) : Statement (.printText s) := rfl
theorem sendCommand (cmd : Byte) : Statement (.sendCommand cmd) := rfl
theorem writeRegister (addr : Nibble) (data : Half) : Statement (.writeRegister addr data) := rfl
theorem lookupGlyph (c : Byte) : Statement (.lookupGlyph c) := rfl
theorem lookupDp (pos : Int) : Statement (.lookupDp pos) := rfl
theorem encoderMove (newPosition : Int) : Statement (.encoderMove newPosition) := rfl
theorem buttonPress : Statement .buttonPress := rfl
theorem reserved (opcode : Byte) : Statement (.reserved opcode) := rfl
theorem sendBits (v n : Nat) : Statement (.sendBits v n) := rfl
theorem frameCmd (c : Byte) : Statement (.frameCmd c) := by
  simp [Statement, encode, frameCmdBits, bitsMsb, formatOf, Instr.format, Nat.testBit, prefixCmd]
theorem frameWr (a : Addr6) (d : Nibble) : Statement (.frameWr a d) := by
  simp [Statement, encode, frameWrBits, bitsMsb, formatOf, Instr.format, Nat.testBit, prefixWr]

end Sys2Proof.Laws.EncodedForm
end

