-- ==== Sys2Proof/Laws/Quantizer.lean ====
section
/-! SUPPORT. The W-bit signed range of the quantizer (spec/43_quantizer.md R241). -/

namespace Sys2Proof.Machine

/-- The width check is the range the spec writes, -2^(W-1) to 2^(W-1) - 1, for every W (R115, R241). -/
theorem fitsWidth_iff (w : Nat) (x : Int) :
    fitsWidth w x = true ↔
      -(2 : Rat) ^ ((w : Int) - 1) ≤ x ∧ (x : Rat) ≤ (2 : Rat) ^ ((w : Int) - 1) - 1 := by
  have e : (2 : Rat) ^ ((w : Int) - 1) = 2 ^ w / 2 := by rw [zpow_sub_one₀ (by norm_num), zpow_natCast]; rfl
  rw [e]
  simp only [fitsWidth, Bool.and_eq_true, decide_eq_true_eq]
  rw [← Int.cast_le (R := Rat), ← Int.cast_le (R := Rat)]
  push_cast
  constructor <;> intro ⟨h1, h2⟩ <;> constructor <;> linarith

end Sys2Proof.Machine
end

