-- ==== Sys2Proof/Tests/Slice0.lean ====
section
/-! SUPPORT. The model's own tests. Expected values are those of spec/95_test_vectors.md (its vector's name stands on the
test), or of the table the comment names; the configuration TC is that file's. -/

namespace Sys2Proof.Tests

open Sys2Proof.Machine

/-- The test configuration TC (95_test_vectors.md section 0). -/
def tc : Config where
  glyph := Vector.ofFn fun i => BitVec.ofNat 16 (0xA000 + i.val)
  dpMask := Vector.ofFn fun p => BitVec.ofNat 16 (2 ^ (15 - p.val))
  cmdSysEn := 0x11
  cmdClk32k := 0x22
  cmdDispOn := 0x33
  cmdDispOff := 0x44
  accel := Accel.reference
  valueInit := 100000
  positionInit := 0
  valueWidth := none
  stuckTimeout := none

/-- The reset state under TC. -/
def start : State :=
  State.powerUp tc

/-- `start` with host words on the port. -/
def presenting (ws : List HostWord) : State :=
  { start with port := ws }

/-- A host word. -/
def word (opcode : Byte) (operands : List Operand := []) : HostWord :=
  { opcode := opcode, operands := operands }

/-- The next state of a step, if there is one. -/
def nextOf (o : Host.Outcome State Fault Refusal) : Option State :=
  match o with
  | .next t => some t
  | .fault _ => none
  | .refused _ => none

/-- RESULT and SEQ after the first step with a word presented. -/
def accepts (w : HostWord) : Option (Result × Seq) :=
  (nextOf (step (presenting [w]))).map fun t => (t.result, t.seq)

/-- An error, complete in the acceptance step. -/
def error (e : Status) : Option (Result × Seq) :=
  some ({ status := e, value := none }, .idle)

/-- RESULT (OK, v), complete in the acceptance step. -/
def completes (v : Option ReturnValue) : Option (Result × Seq) :=
  some ({ status := .ok, value := v }, .idle)

/-- The operation is accepted; RESULT still holds its reset value. -/
def begins (op : Instr) : Option (Result × Seq) :=
  some ({ status := .ok, value := none }, .busy op 0)

/-- Bits written as a string of digits. -/
def bits (s : String) : List Bool :=
  s.toList.map fun c => c == '1'

/-- The frames of an operation under TC, in the order they close. -/
def frames (op : Instr) : List (List Bool) :=
  closedFrames false none (opEvents tc .hz op)

/-! ### WellFormed: each check refuses an ill-formed term -/

theorem test_wf_refuses_assigned_opcode : Instr.wf (.reserved 0x01) = false := by decide

theorem test_wf_refuses_bit_count : Instr.wf (.sendBits 0 5) = false := by decide

theorem test_wf_accepts : Instr.wf (.reserved 0x00) = true ∧ Instr.wf (.sendBits 0 8) = true := by decide

/-! ### Decoding: a word written out from R104, R101, R102 or R160 for every constructor -/

theorem test_decode_init : decode (.host (word 0x01)) = .ok .init := rfl

theorem test_decode_powerOff : decode (.host (word 0x02)) = .ok .powerOff := rfl

theorem test_decode_powerOn : decode (.host (word 0x03)) = .ok .powerOn := rfl

theorem test_decode_clear : decode (.host (word 0x04)) = .ok .clear := rfl

theorem test_decode_fill : decode (.host (word 0x05)) = .ok .fill := rfl

theorem test_decode_setDp : decode (.host (word 0x06 [.int 2])) = .ok (.setDp 2) := rfl

theorem test_decode_clearDp : decode (.host (word 0x07)) = .ok .clearDp := rfl

theorem test_decode_printInteger : decode (.host (word 0x08 [.int 1234])) = .ok (.printInteger 1234) := rfl

theorem test_decode_printChar : decode (.host (word 0x09 [.int 9, .byte 0x4B])) = .ok (.printChar 9 0x4B) := rfl

theorem test_decode_printText : decode (.host (word 0x0A [.text [0x48, 0x49]])) = .ok (.printText [0x48, 0x49]) := rfl

theorem test_decode_sendCommand : decode (.host (word 0x10 [.byte 0x01])) = .ok (.sendCommand 0x01) := rfl

theorem test_decode_writeRegister :
    decode (.host (word 0x11 [.nibble 3, .half 0xABCD])) = .ok (.writeRegister 3 0xABCD) := rfl

theorem test_decode_lookupGlyph : decode (.host (word 0x20 [.byte 0x41])) = .ok (.lookupGlyph 0x41) := rfl

theorem test_decode_lookupDp : decode (.host (word 0x21 [.int (-1)])) = .ok (.lookupDp (-1)) := rfl

theorem test_decode_encoderMove : decode (.host (word 0x30 [.int (-3)])) = .ok (.encoderMove (-3)) := rfl

theorem test_decode_buttonPress : decode (.host (word 0x31)) = .ok .buttonPress := rfl

theorem test_decode_reserved :
    decode (.host (word 0x00)) = .ok (.reserved 0x00) ∧ decode (.host (word 0xFF [.int 7])) = .ok (.reserved 0xFF) :=
  ⟨rfl, rfl⟩

theorem test_decode_sendBits : decode (.internal (.micro 0b101 3)) = .ok (.sendBits 0b101 3) := rfl

/-- The frame of W2: `1000 00000001`. -/
theorem test_decode_frameCmd : decode (.internal (.wire (bits "100000000001"))) = .ok (.frameCmd 0x01) := by rfl

/-- The third frame of W4: `101 001110 1100`, NIB[14] and payload 0xC. -/
theorem test_decode_frameWr : decode (.internal (.wire (bits "1010011101100"))) = .ok (.frameWr 14 0xC) := by rfl

/-- Words that are no operation words are refused by name. -/
theorem test_decode_refuses :
    decode (.host (word 0x08 [])) = .error (.operandTypes 0x08) ∧
    decode (.internal (.micro 0 5)) = .error (.bitCount 5) ∧
    decode (.internal (.wire (bits "100100000000"))) = .error (.notAFrame (bits "100100000000")) :=
  ⟨rfl, rfl, by rfl⟩

/-- The opcode table's numbering: the first bit sent is the highest (30_encoding.md R101, R102). -/
theorem test_decode_table_words :
    decodeTableWord 8 0x11 = some (.writeRegister 0 0) ∧ decodeTableWord 8 0x0B = some (.reserved 0x0B) ∧
    decodeTableWord 16 0x801 = some (.frameCmd 0x01) ∧ decodeTableWord 16 0x14EC = some (.frameWr 14 0xC) :=
  ⟨by rfl, by rfl, by rfl, by rfl⟩

/-- A word placed for the fetch is the next one run. -/
theorem test_fetch_word :
    (nextOf (step (start.withFetchWord 8 0x05))).map (fun t => t.seq) = some (.busy .fill 0) ∧
    (nextOf (step (start.withFetchWord 16 0x14EC))).map (fun t => t.seq) = some (.busy (.frameWr 14 0xC) 0) :=
  ⟨by rfl, by rfl⟩

/-! ### Tables -/

/-- T1, T2, T5, T6, T7. -/
theorem test_lookup_glyph :
    accepts (word 0x20 [.byte 0x20]) = completes (some (.pattern 0x0000)) ∧
    accepts (word 0x20 [.byte 0x2A]) = completes (some (.pattern 0xA000)) ∧
    accepts (word 0x20 [.byte 0x39]) = completes (some (.pattern 0xA00F)) ∧
    accepts (word 0x20 [.byte 0x41]) = completes (some (.pattern 0xA010)) ∧
    accepts (word 0x20 [.byte 0x5A]) = completes (some (.pattern 0xA029)) := by decide +kernel

/-- T8. -/
theorem test_lookup_glyph_unsupported :
    accepts (word 0x20 [.byte 0x29]) = error .unsupportedCharacter ∧
    accepts (word 0x20 [.byte 0x3A]) = error .unsupportedCharacter ∧
    accepts (word 0x20 [.byte 0x40]) = error .unsupportedCharacter ∧
    accepts (word 0x20 [.byte 0x5B]) = error .unsupportedCharacter ∧
    accepts (word 0x20 [.byte 0x61]) = error .unsupportedCharacter := by decide +kernel

/-- T9, T10. -/
theorem test_lookup_dp :
    accepts (word 0x21 [.int 1]) = completes (some (.dpEntry 11 0x8000)) ∧
    accepts (word 0x21 [.int 3]) = completes (some (.dpEntry 11 0x2000)) ∧
    accepts (word 0x21 [.int 4]) = completes (some (.dpEntry 10 0x1000)) ∧
    accepts (word 0x21 [.int 9]) = completes (some (.dpEntry 10 0x0080)) := by decide +kernel

/-- T11. -/
theorem test_lookup_dp_outside :
    accepts (word 0x21 [.int 0]) = completes none ∧ accepts (word 0x21 [.int 10]) = completes none ∧
    accepts (word 0x21 [.int (-1)]) = completes none := by decide +kernel

/-! ### Protocol engine -/

/-- W1: `d1 w1 w0 d0 w1 w0 d1 w1 w0 d0`. -/
theorem test_send_bits_events :
    opEvents tc .hz (.sendBits 0b101 3) =
      [.setLine .data true, .setLine .wr true, .setLine .wr false, .setLine .data false, .setLine .wr true,
       .setLine .wr false, .setLine .data true, .setLine .wr true, .setLine .wr false, .setLine .data false] := by
  decide +kernel

/-- W2, W3: the frames `1000 00000001` and `1000 11111111`, 40 events. -/
theorem test_send_command_frames :
    frames (.sendCommand 0x01) = [bits "100000000001"] ∧ frames (.sendCommand 0xFF) = [bits "100011111111"] ∧
    (opEvents tc .hz (.sendCommand 0x01)).length = 40 := by decide +kernel

/-- W4. -/
theorem test_write_register_frames :
    frames (.writeRegister 3 0xABCD) =
      [bits "1010011001010", bits "1010011011011", bits "1010011101100", bits "1010011111101",
       bits "1010100000000"] := by decide +kernel

/-- W9, and a legal address. -/
theorem test_write_register_range :
    accepts (word 0x11 [.nibble 12, .half 0x0000]) = error .operandRange ∧
    accepts (word 0x11 [.nibble 15, .half 0xFFFF]) = error .operandRange ∧
    accepts (word 0x11 [.nibble 11, .half 0xFFFF]) = begins (.writeRegister 11 0xFFFF) := by decide +kernel

/-- FRAME_CMD and FRAME_WR put their own bits on the wire. -/
theorem test_wire_frames :
    frames (.frameCmd 0x01) = [bits "100000000001"] ∧ frames (.frameWr 14 0xC) = [bits "1010011101100"] := by
  decide +kernel

/-- CS rising after the frame `101 001110 1100` writes 0xC to NIB[14] (20_memory.md R71, R72). -/
theorem test_frame_closes :
    ({ frame := some (bits "1010011101100"), nib := [(14, 0x5), (20, 0x1)] : Receiver }.sense .cs true false) =
      { frame := none, nib := [(14, 0xC), (20, 0x1)] } := by decide +kernel

/-! ### Display operations -/

/-- V1, V2: `1000 00010001`, `1000 00100010`, `1000 00110011`; `1000 01000100`; `1000 00110011`. -/
theorem test_receiver_commands :
    frames .init = [bits "100000010001", bits "100000100010", bits "100000110011"] ∧
    frames .powerOff = [bits "100001000100"] ∧ frames .powerOn = [bits "100000110011"] := by decide +kernel

/-- V3, V4: 2640 events, the first and the last frame of each. -/
theorem test_clear_fill_frames :
    (frames .clear).head? = some (bits "1010000000000") ∧ (frames .clear).getLast? = some (bits "1011100000000") ∧
    (frames .fill).head? = some (bits "1010000001111") ∧ (frames .fill).getLast? = some (bits "1011100000000") ∧
    (frames .clear).length = 60 ∧ (opEvents tc .hz .fill).length = 2640 := by decide +kernel

/-- V5: the frames of `WRITE_REGISTER 11, 0x4000`; V8: registers 10 and 11. -/
theorem test_dp_frames :
    frames (.setDp 2) = frames (.writeRegister 11 0x4000) ∧
    frames .clearDp = frames (.writeRegister 10 0) ++ frames (.writeRegister 11 0) := by decide +kernel

/-- V7. -/
theorem test_set_dp_outside :
    accepts (word 0x06 [.int 0]) = completes none ∧ accepts (word 0x06 [.int 10]) = completes none ∧
    accepts (word 0x06 [.int (-3)]) = completes none := by decide +kernel

/-- V10 (program P1): the clear, then '4', '3', '2', '1' in registers 0 to 3. -/
theorem test_print_integer_frames :
    frames (.printInteger 1234) = frames .clear ++ frames (.writeRegister 0 0xA00A) ++ frames (.writeRegister 1 0xA009)
      ++ frames (.writeRegister 2 0xA008) ++ frames (.writeRegister 3 0xA007) := by decide +kernel

/-- V11, V12, V13. -/
theorem test_print_integer_checks :
    accepts (word 0x08 [.int 9999999999]) = begins (.printInteger 9999999999) ∧
    accepts (word 0x08 [.int 10000000000]) = error .displayOverflow ∧
    accepts (word 0x08 [.int (-1)]) = error .unsupportedCharacter ∧
    accepts (word 0x08 [.int (-10000000000)]) = error .unsupportedCharacter := by decide +kernel

/-- V14, V15. -/
theorem test_print_char_frames :
    frames (.printChar 9 0x4B) = frames (.writeRegister 9 0xA01A) ∧
    frames (.printChar 4 0x20) = frames (.writeRegister 4 0x0000) := by decide +kernel

/-- V16, V17. -/
theorem test_print_char_checks :
    accepts (word 0x09 [.int 10, .byte 0x41]) = error .displayOverflow ∧
    accepts (word 0x09 [.int (-1), .byte 0x41]) = error .displayOverflow ∧
    accepts (word 0x09 [.int 3, .byte 0x61]) = error .unsupportedCharacter ∧
    accepts (word 0x09 [.int 12, .byte 0x61]) = error .displayOverflow := by decide +kernel

/-- V19, V23. -/
theorem test_print_text_frames :
    frames (.printText [0x41, 0x20, 0x42]) =
      frames (.writeRegister 7 0xA010) ++ frames (.writeRegister 8 0x0000) ++ frames (.writeRegister 9 0xA011) ∧
    frames (.printText [0x2D, 0x35]) = frames (.writeRegister 8 0xA003) ++ frames (.writeRegister 9 0xA00B) := by
  decide +kernel

/-- V20, V21, V22. -/
theorem test_print_text_checks :
    accepts (word 0x0A [.text []]) = completes none ∧
    accepts (word 0x0A [.text [0x48, 0x45, 0x4C, 0x4C, 0x4F, 0x20, 0x57, 0x4F, 0x52, 0x4C, 0x44]]) =
      error .displayOverflow ∧
    accepts (word 0x0A [.text [0x48, 0x69]]) = error .unsupportedCharacter := by decide +kernel

/-! ### Rotary quantizer -/

/-- From (VALUE, LAST_POS, SPEED) with pulse count `r`, the step of ENCODER_MOVE `p` emits CounterReset alone and leaves
VALUE `v`, which is returned, and LAST_POS `p`. -/
def moves (value lastPos : Int) (speed : Speed) (p : Int) (r : Nat) (v : Int) : Bool :=
  let s := { start with
    value := value, lastPos := lastPos, speed := speed, rotspeed := r, seq := .busy (.encoderMove p) 0 }
  match nextOf (step s) with
  | some t => t.value == v && t.lastPos == p && decide (t.trace = [.counterReset]) &&
      decide (t.result = { status := .ok, value := some (.value v) }) && decide (t.seq = .idle)
  | none => false

/-- Q1, Q2, Q3. -/
theorem test_encoder_move :
    moves 100000 0 .hz 1 5 100001 = true ∧
    moves 100001 1 .khz 2 20 600001 = true ∧
    moves 0 0 .khz 3 9 150000 = true := by decide +kernel

/-- Q5, Q7, Q10: the clamp, what follows it, and a negative difference. -/
theorem test_encoder_move_clamp :
    moves 100000 0 .mhz (-1) 0 0 = true ∧
    moves 0 (-1) .mhz 0 20 500000000 = true ∧
    moves 1000 0 .hz (-3) 12 700 = true := by decide +kernel

/-- Q13. -/
theorem test_encoder_move_width :
    (nextOf (step { presenting [word 0x30 [.int 2147483647]] with
      cfg := { tc with valueWidth := some 32 }, lastPos := -1, pulses := [0] })).map
        (fun t => (t.result, t.seq)) = error .operandRange := by decide +kernel

/-! ### Speed-range selector -/

/-- B1, B3: SPEED advances at acceptance. -/
theorem test_button_press_advances :
    (nextOf (exec .buttonPress start)).map (fun t => (t.speed, t.seq)) = some (.khz, .busy .buttonPress 0) ∧
    (nextOf (exec .buttonPress { start with speed := .mhz })).map (fun t => (t.speed, t.seq)) =
      some (.hz, .busy .buttonPress 0) := by decide +kernel

/-- B1, B2, B3: the indicator of the range entered. -/
theorem test_button_press_indicator :
    closedFrames false none (opEvents tc .khz .buttonPress) = frames (.writeRegister 9 0xA01A) ∧
    closedFrames false none (opEvents tc .mhz .buttonPress) = frames (.writeRegister 9 0xA01C) ∧
    closedFrames false none (opEvents tc .hz .buttonPress) =
      frames (.writeRegister 8 0xA017) ++ frames (.writeRegister 9 0xA029) := by decide +kernel

/-- B5, B6, B7: the third poll, pressed without and with a bound of 3, and released. -/
theorem test_release_wait :
    (nextOf (step { start with seq := .waitRelease 2, buttons := [false] })).map (fun t => t.seq) =
      some (.waitRelease 3) ∧
    (nextOf (step { start with
      cfg := { tc with stuckTimeout := some 3 }, seq := .waitRelease 2, buttons := [false] })).map
        (fun t => (t.result, t.seq)) = error .stuckInput ∧
    (nextOf (step { start with seq := .waitRelease 2, buttons := [true] })).map (fun t => (t.result, t.seq)) =
      completes none := by decide +kernel

/-! ### Illegal operations -/

/-- X1, X2. -/
theorem test_illegal_operation :
    accepts (word 0x00) = error .illegalOperation ∧ accepts (word 0x0B [.int 1]) = error .illegalOperation ∧
    accepts (word 0x32) = error .illegalOperation ∧ accepts (word 0xFF) = error .illegalOperation := by decide +kernel

/-- Reset waits for the host's first operation (70_reset_and_hazards.md R311). -/
theorem test_idle_waits : nextOf (step start) = some start := by decide +kernel

/-! ### Witnesses: the hypotheses of every statement that has some are met, clause by clause, at boundary values -/

/-- EncodeThenDecode. -/
theorem witness_encodeThenDecode :
    Instr.wf (.reserved 0xFF) = true ∧ Instr.wf (.sendBits 5 3) = true ∧ Instr.wf (.frameWr 63 15) = true ∧
    Instr.wf (.printText []) = true := by decide

/-- DecodeThenEncode and DecodedIsWellFormed. -/
theorem witness_decodeThenEncode :
    decode (.internal (.wire (bits "1011111111111"))) = .ok (.frameWr 63 15) ∧
    ∀ opcode, Instr.frameWr 63 15 ≠ .reserved opcode := ⟨by rfl, nofun⟩

/-- UnassignedOpcodeIsIllegal. -/
theorem witness_unassignedOpcode :
    (0x32 : Byte) ∉ ([0x01, 0x02, 0x03, 0x04, 0x05, 0x06, 0x07, 0x08, 0x09, 0x0A, 0x10, 0x11, 0x20, 0x21, 0x30, 0x31] :
      List Byte) ∧
    (presenting [word 0x32 [.int 3]]).seq = .idle ∧ (presenting [word 0x32 [.int 3]]).issue = none ∧
    (presenting [word 0x32 [.int 3]]).port = [word 0x32 [.int 3]] := ⟨by decide, rfl, rfl, rfl⟩

/-- StepRunsDecodedOperation, its five clauses. -/
theorem witness_stepRunsDecodedOperation :
    ((presenting [word 0x04]).seq = .idle ∧ (presenting [word 0x04]).issue = none ∧
      (presenting [word 0x04]).port = [word 0x04] ∧ decode (.host (word 0x04)) = .ok .clear) ∧
    ({ start with issue := some (.micro 1 3) }.seq = .idle ∧
      decode (.internal (.micro 1 3)) = .ok (.sendBits 1 3)) ∧
    decode (.host (word 0x04 [.int 0])) = .error (.operandTypes 0x04) ∧
    decode (.internal (.micro 1 9)) = .error (.bitCount 9) ∧
    (start.issue = none ∧ start.port = []) := ⟨⟨rfl, rfl, rfl, rfl⟩, ⟨rfl, rfl⟩, rfl, rfl, rfl, rfl⟩

/-- PortHeldWhileBusy, in each state that is not IDLE. -/
theorem witness_portHeld :
    { start with seq := .busy .fill 0 }.seq ≠ .idle ∧ { start with seq := .debounce }.seq ≠ .idle ∧
    { start with seq := .waitRelease 0 }.seq ≠ .idle := ⟨nofun, nofun, nofun⟩

/-- OneEventPerStep, InvariantKept and TraceExplainsKept: a step from a state with the invariants. -/
theorem witness_step_from_start :
    ∃ t, step (presenting [word 0x31]) = .next t ∧ (presenting [word 0x31]).Inv ∧
      (presenting [word 0x31]).traceExplains :=
  ⟨_, rfl, ⟨rfl, by decide, rfl, rfl⟩, rfl, fun _ => rfl, fun _ => rfl⟩

/-- OneEventPerStep: a step that emits. -/
theorem witness_step_that_emits :
    (nextOf (step { start with seq := .busy .clear 0 })).map (fun t => t.trace) = some [.setLine .cs false] := by
  decide +kernel

/-- WritersOfState: a step that changes LAST_POS and VALUE, one that changes SPEED, one that changes a line, one that
changes NIB, one that changes RESULT. -/
theorem witness_writersOfState :
    moves 5 0 .hz 1 0 6 = true ∧
    (nextOf (step (presenting [word 0x31]))).map (fun t => t.speed) = some .khz ∧
    (nextOf (step { start with seq := .busy .clear 0 })).map (fun t => t.lines.cs) = some false ∧
    (nextOf (step { start with
      seq := .busy (.frameWr 14 0xC) 43, receiver := { frame := some (bits "1010011101100"), nib := [] } })).map
        (fun t => t.receiver.nib) = some [(14, 0xC)] ∧
    accepts (word 0x00) = error .illegalOperation := by decide +kernel

/-- RejectionIsPrecise: an operation that a check rejects, and ENCODER_MOVE rejected. -/
theorem witness_rejection :
    (nextOf (exec (.writeRegister 12 0) start)).map (fun t => (t.result, t.seq)) = error .operandRange ∧
    (nextOf (exec (.encoderMove 2147483647) { start with
      cfg := { tc with valueWidth := some 32 }, lastPos := -1, pulses := [0] })).map
        (fun t => (t.result, t.seq)) = error .operandRange := by decide +kernel

/-- LookupGlyphResult: the first and last code of each clause. -/
theorem witness_lookupGlyph :
    (0x2A ≤ (0x2A : Byte).toNat ∧ (0x39 : Byte).toNat ≤ 0x39) ∧
    (0x41 ≤ (0x41 : Byte).toNat ∧ (0x5A : Byte).toNat ≤ 0x5A) ∧
    (∀ c ∈ ([0x00, 0x1F, 0x21, 0x29, 0x3A, 0x40, 0x5B, 0x61, 0xFF] : List Byte),
      c ≠ 0x20 ∧ ¬ (0x2A ≤ c.toNat ∧ c.toNat ≤ 0x39) ∧ ¬ (0x41 ≤ c.toNat ∧ c.toNat ≤ 0x5A)) := by decide

/-- LookupDpResult and SetDpOverwritesRegister: positions 1, 3, 4, 9 and, outside, 0 and 10. -/
theorem witness_dp_positions :
    ((1 : Int) = (0 : Fin 9).val + 1 ∧ (1 : Int) ≤ 3) ∧ ((3 : Int) = (2 : Fin 9).val + 1 ∧ (3 : Int) ≤ 3) ∧
    ((4 : Int) = (3 : Fin 9).val + 1 ∧ (4 : Int) ≤ 4) ∧ ((9 : Int) = (8 : Fin 9).val + 1 ∧ (4 : Int) ≤ 9) ∧
    (((0 : Int) < 1 ∨ (9 : Int) < 0) ∧ ((10 : Int) < 1 ∨ (9 : Int) < 10)) := by decide

/-- SendBitsEmitsBits: every bit count. -/
theorem witness_sendBits : ∀ n ∈ [3, 4, 6, 8], n ∈ [3, 4, 6, 8] := fun _ h => h

/-- WriteRegisterEmitsFiveFrames and RegisterWriteIsNotAtomic: addresses 0, 10, 11 and, outside, 12 and 15. -/
theorem witness_writeRegister :
    (0 : Nibble).toNat ≤ 10 ∧ (10 : Nibble).toNat ≤ 10 ∧ (11 : Nibble).toNat ≤ 11 ∧ (12 : Nibble).toNat > 11 ∧
    (15 : Nibble).toNat > 11 ∧ (0 ≤ 5 ∧ 5 ≤ 5) := by decide

/-- SpillDependsOnOrder: the lowest and the highest pair of neighbours. -/
theorem witness_spill :
    ((0 : Nibble).toNat ≤ 10 ∧ (1 : Nibble).toNat = (0 : Nibble).toNat + 1) ∧
    ((10 : Nibble).toNat ≤ 10 ∧ (11 : Nibble).toNat = (10 : Nibble).toNat + 1) := by decide

/-- FrameDiscipline: an operation accepted from the reset state. -/
theorem witness_frameDiscipline :
    Instr.format .fill = .host ∧ ∃ t, exec .fill start = .next t ∧ t.seq = .busy .fill 0 := ⟨rfl, _, rfl, rfl⟩

/-- DecimalTextIsShortest: its clauses at 1 and 9, and another digit string of value 7. -/
theorem witness_decimalText :
    1 ≤ 1 ∧ 9 ≤ 9 ∧ ([0x30, 0x37] : List Byte) ≠ [] ∧
    (∀ c ∈ ([0x30, 0x37] : List Byte), 0x30 ≤ c.toNat ∧ c.toNat ≤ 0x39) ∧
    ([0x30, 0x37] : List Byte).foldl (fun acc c => 10 * acc + (c.toNat - 0x30)) 0 = 7 := by decide

/-- PrintIntegerWritesDigits: 0 and 9999999999, a negative and a long number. -/
theorem witness_printInteger :
    ((0 : Int) ≤ 0 ∧ (0 : Int) ≤ 9999999999) ∧ ((0 : Int) ≤ 9999999999 ∧ (9999999999 : Int) ≤ 9999999999) ∧
    (-1 : Int) < 0 ∧ (10000000000 : Int) > 9999999999 := by decide

/-- PrintCharWritesOneRegister: registers 0 and 9, an index outside, a character outside. -/
theorem witness_printChar :
    ((0 : Int) ≤ 0 ∧ (0 : Int) ≤ 9 ∧ (9 : Int) ≤ 9 ∧ charPattern tc 0x4B = some 0xA01A) ∧
    ((-1 : Int) < 0 ∧ (9 : Int) < 10) ∧ charPattern tc 0x61 = none := by decide +kernel

/-- PrintTextRightAligns: one and ten characters, eleven, and a character outside. -/
theorem witness_printText :
    ([0x41] : List Byte).map (charPattern tc) = ([0xA010] : List Half).map some ∧
    (List.replicate 10 (0x20 : Byte)).map (charPattern tc) = (List.replicate 10 (0 : Half)).map some ∧
    (List.replicate 11 (0x20 : Byte)).length > 10 ∧
    (∃ c ∈ ([0x48, 0x69] : List Byte), charPattern tc c = none) := by decide +kernel

/-- AccelerationMap: r = 8, 9, 10, 11, 14, 15 in the clauses of the reference thresholds. -/
theorem witness_acceleration :
    8 ≤ Accel.reference.t1 ∧ (Accel.reference.t1 < 9 ∧ 10 ≤ Accel.reference.t2) ∧
    (Accel.reference.t2 < 11 ∧ 14 ≤ Accel.reference.t3) ∧ Accel.reference.t3 < 15 := by decide

/-- A state with VALUE_WIDTH = 32 and the pulse counts 0 ready. -/
def wide : State :=
  { start with cfg := { tc with valueWidth := some 32 }, lastPos := -1, pulses := [0] }

/-- EncoderMoveUpdatesValue: both clauses with VALUE_WIDTH = 32, at the highest value in range and the first outside. -/
theorem witness_encoderMove :
    (∀ w, wide.cfg.valueWidth = some w → ∀ x ∈ [(0 : Int), 1, 1, 100001],
      -(2 : Rat) ^ ((w : Int) - 1) ≤ x ∧ (x : Rat) ≤ (2 : Rat) ^ ((w : Int) - 1) - 1) ∧
    (wide.cfg.valueWidth = some 32 ∧ ∃ x ∈ [(2147483647 : Int), 2147483648, 2147483648, 2147583648],
      (x : Rat) < -(2 : Rat) ^ ((32 : Int) - 1) ∨ (2 : Rat) ^ ((32 : Int) - 1) - 1 < x) ∧
    start.cfg.valueWidth = none := by
  refine ⟨?_, ⟨rfl, 2147483648, by simp, .inr ?_⟩, rfl⟩
  · intro w hw
    obtain rfl : w = 32 := by simpa [wide, tc] using hw.symm
    intro x hx
    simp only [List.mem_cons, List.not_mem_nil, or_false] at hx
    rcases hx with rfl | rfl | rfl | rfl <;> constructor <;> norm_num
  · norm_num

/-- EncoderMoveProperties, both signs of the difference. -/
theorem witness_encoderMoveProperties :
    start.cfg.accel = Accel.reference ∧ start.cfg.valueWidth = none ∧ 0 ≤ start.value ∧ (-1 : Int) ≤ 1 ∧
    0 ≤ (1 : Int) - start.lastPos ∧ (-1 : Int) - start.lastPos < 0 := by decide

/-- ButtonPressAdvancesRange, from each range. -/
theorem witness_buttonPress :
    ∀ speed : Speed, State.drawnButton { start with speed := speed, buttons := [true] } = true := fun _ => rfl

/-- BUTTON_PRESS polling after `n` pressed polls, with the bound `k` and the next button levels. -/
def polling (k : Option Nat) (n : Nat) (levels : List Bool) : State :=
  { start with cfg := { tc with stuckTimeout := k }, seq := .waitRelease n, buttons := levels }

/-- ReleaseWaitSteps, its clauses; with the bound 3 they meet at n + 1 = 2 and n + 1 = 3. -/
theorem witness_releaseWait :
    { start with seq := .debounce }.seq = .debounce ∧
    ((polling none 0 [true]).seq = .waitRelease 0 ∧ (polling none 0 [true]).drawnButton = true) ∧
    ((polling none 0 [false]).seq = .waitRelease 0 ∧ (polling none 0 [false]).drawnButton = false ∧
      (polling none 0 [false]).cfg.stuckTimeout = none) ∧
    ((polling (some 3) 1 [false]).seq = .waitRelease 1 ∧ (polling (some 3) 1 [false]).drawnButton = false ∧
      (polling (some 3) 1 [false]).cfg.stuckTimeout = some 3 ∧ 1 + 1 < 3) ∧
    ((polling (some 3) 2 [false]).seq = .waitRelease 2 ∧ (polling (some 3) 2 [false]).drawnButton = false ∧
      (polling (some 3) 2 [false]).cfg.stuckTimeout = some 3 ∧ 3 ≤ 2 + 1) :=
  ⟨rfl, ⟨rfl, rfl⟩, ⟨rfl, rfl, rfl⟩, ⟨rfl, rfl, rfl, by decide⟩, rfl, rfl, rfl, by decide⟩

/-- StuckButtonHangs. -/
theorem witness_stuckButton :
    (polling none 7 [false, false]).cfg.stuckTimeout = none ∧ (polling none 7 [false, false]).seq = .waitRelease 7 ∧
    (polling none 7 [false, false]).buttons = List.replicate 2 false ++ [] := ⟨rfl, rfl, rfl⟩

/-- StuckTimeoutEndsWait, with the smallest bound. -/
theorem witness_stuckTimeout :
    (polling (some 1) 0 [false, true]).cfg.stuckTimeout = some 1 ∧ 1 ≤ 1 ∧
    (polling (some 1) 0 [false, true]).seq = .waitRelease 0 ∧
    (polling (some 1) 0 [false, true]).buttons = List.replicate 1 false ++ [true] := ⟨rfl, le_rfl, rfl, rfl⟩

/-- ResetAbandonsOperation: a memory with the lowest and the highest cell written. -/
theorem witness_reset : Memory.wf [(0, 0xA), (63, 0x1)] = true := by decide

/-- PressesCycleTheRange: each residue. -/
theorem witness_presses : 0 % 3 = 0 ∧ 1 % 3 = 1 ∧ 5 % 3 = 2 := by decide

/-- WidthKept: a state with VALUE_WIDTH = 32 that accepts an ENCODER_MOVE, and one with it in progress. -/
theorem witness_widthKept :
    State.widthHolds 32 { wide with port := [word 0x30 [.int 0]] } ∧
    State.widthHolds 32 { wide with seq := .busy (.encoderMove 0) 0 } := by
  refine ⟨⟨rfl, by decide, by decide, nofun⟩, ⟨rfl, by decide, by decide, ?_⟩⟩
  intro p k h
  cases h
  decide

/-- EveryProgramCompletes: a program with an unassigned opcode, a text and a button press. -/
theorem witness_program :
    start.seq = .idle ∧ start.issue = none ∧ ∀ w ∈ [word 0x31, word 0x0A [.text [0x41]], word 0xEE [.int 0]], ∃ i, decode (.host w) = .ok i := by
  refine ⟨rfl, rfl, ?_⟩
  intro w h
  simp only [List.mem_cons, List.not_mem_nil, or_false] at h
  rcases h with rfl | rfl | rfl <;> exact ⟨_, rfl⟩

end Sys2Proof.Tests
end

section
/-! SUPPORT. The lines and the receiver are at every moment what the trace says (spec/20_memory.md R71, R83): what one
event does to the reading of the trace, and which steps emit one. -/

namespace Sys2Proof.Machine

/-- The wire of `t` is that of `s`: the latches, the receiver and the trace agree. -/
def SameWire (s t : State) : Prop :=
  t.lines = s.lines ∧ t.receiver = s.receiver ∧ t.trace = s.trace

/-! ### Which steps emit an event -/

/-- The end of an operation leaves the wire alone. -/
theorem finish_sameWire (op : Instr) (s : State) : SameWire s (s.finish op) := by
  rw [(finish_frame op s).1]
  exact ⟨rfl, rfl, rfl⟩

/-- Taking an operation from where it waits leaves the wire alone. -/
theorem fetch_sameWire {s t : State} {r : Except DecodeError Instr} (h : s.fetch = some (r, t)) : SameWire s t := by
  obtain ⟨port, issue, rfl⟩ := fetch_frame h
  exact ⟨rfl, rfl, rfl⟩

/-- The acceptance of an operation leaves the wire alone (R35). -/
theorem exec_sameWire {i : Instr} {s t : State} (h : exec i s = .next t) : SameWire s t := by
  obtain ⟨u, hu, hcases⟩ := exec_cases i s
  obtain rfl : u = t := by simpa [hu] using h
  obtain ⟨rfl, -⟩ | ⟨-, rfl⟩ | ⟨p, -, -, rfl⟩ | ⟨p, e, -, -, -, rfl⟩ | ⟨v, rfl, -⟩ | ⟨e, -, rfl, -⟩ := hcases <;>
    exact ⟨rfl, rfl, rfl⟩

/-- A poll of the button leaves the wire alone (R264). -/
theorem pollStep_sameWire (n : Nat) (s : State) : SameWire s (s.pollStep n) := by
  unfold State.pollStep
  split
  · exact ⟨rfl, rfl, rfl⟩
  · unfold State.stillPressed
    split
    · split <;> exact ⟨rfl, rfl, rfl⟩
    · exact ⟨rfl, rfl, rfl⟩

/-- BUSY does to the wire what the next event of the sequence does, or, with no event left, nothing (R35). -/
theorem busyStep_wire (op : Instr) (k : Nat) (s : State) :
    SameWire s (s.busyStep op k) ∨ ∃ e, SameWire (s.emit e) (s.busyStep op k) := by
  cases hget : (opEvents s.cfg s.speed op)[k]? with
  | none =>
    simp only [State.busyStep, hget]
    exact .inl (finish_sameWire op s)
  | some e =>
    simp only [State.busyStep, hget]
    right
    split
    · exact ⟨e, rfl, rfl, rfl⟩
    · exact ⟨e, finish_sameWire op (s.emit e)⟩

/-- Every step leaves the wire alone or does to it what one event does (R35, R168). -/
theorem step_wire {s t : State} (h : step s = .next t) : SameWire s t ∨ ∃ e, SameWire (s.emit e) t := by
  obtain ⟨i, u, -, hfetch, hstep⟩ | ⟨_, _, -, -, hstep⟩ | ⟨-, -, hstep⟩ | ⟨op, k, -, hstep⟩ | ⟨-, hstep⟩ |
    ⟨n, -, hstep⟩ := step_cases s
  · obtain ⟨hl, hr, ht⟩ := fetch_sameWire hfetch
    obtain ⟨hl', hr', ht'⟩ := exec_sameWire (hstep.symm.trans h)
    exact .inl ⟨hl'.trans hl, hr'.trans hr, ht'.trans ht⟩
  · cases hstep.symm.trans h
  · cases hstep.symm.trans h
    exact .inl ⟨rfl, rfl, rfl⟩
  · cases hstep.symm.trans h
    exact busyStep_wire op k s
  · cases hstep.symm.trans h
    exact .inl ⟨rfl, rfl, rfl⟩
  · cases hstep.symm.trans h
    exact .inl (pollStep_sameWire n s)

/-! ### What one event adds to the reading of the trace -/

/-- The latches follow the trace event by event (00_scope.md R12). -/
theorem linesAfter_append_emit {s : State} (h : s.lines = linesAfter s.trace) (e : Event) :
    (s.emit e).lines = linesAfter (s.trace ++ [e]) := by
  rw [linesAfter, List.foldl_append, ← linesAfter, ← h]
  cases e <;> rfl

/-- One more closed frame changes the last write to cell `a` as the receiver changes the cell (R72, R83). -/
theorem read_close_eq_lastWrite {a : Nat} {r : Receiver} {frames : List (List Bool)}
    (h : Nib.read a r.nib = lastWrite a frames) (bits : List Bool) :
    Nib.read a (r.close bits).nib = lastWrite a (frames ++ [bits]) := by
  rw [lastWrite, List.foldl_append, ← lastWrite, ← h, List.foldl_cons, List.foldl_nil, Receiver.close]
  cases hd : decodeWire bits with
  | error _ => rfl
  | ok i =>
    cases i with
    | frameWr b d =>
      show Nib.read a (Nib.write b.toNat d r.nib) = if b.toNat = a then some d else Nib.read a r.nib
      rw [nib_read_write]
      exact if_congr eq_comm rfl rfl
    | _ => rfl

/-- An event closes no frame and leaves `NIB`, or it closes the open frame and the receiver acts on it (R71). -/
theorem emit_closes (e : Event) (s : State) :
    (closedFrames s.lines.data s.receiver.frame [e] = [] ∧ (s.emit e).receiver.nib = s.receiver.nib) ∨
      ∃ bits, closedFrames s.lines.data s.receiver.frame [e] = [bits] ∧
        (s.emit e).receiver = s.receiver.close bits := by
  match e with
  | .counterReset => exact .inl ⟨rfl, rfl⟩
  | .setLine .data v => exact .inl ⟨rfl, rfl⟩
  | .setLine .wr false => exact .inl ⟨rfl, rfl⟩
  | .setLine .wr true => cases hf : s.receiver.frame <;> simp [closedFrames, Receiver.sense, hf]
  | .setLine .cs false => exact .inl ⟨rfl, rfl⟩
  | .setLine .cs true => cases hf : s.receiver.frame <;> simp [closedFrames, Receiver.sense, hf]

/-- The trace explains a state by its wire alone. -/
theorem traceExplains_of_sameWire {s t : State} (hw : SameWire s t) (h : s.traceExplains) : t.traceExplains := by
  obtain ⟨hl, hr, ht⟩ := hw
  unfold State.traceExplains
  rw [hl, hr, ht]
  exact h

/-- Emitting an event keeps the lines and the receiver what the trace says (R71, R83). -/
theorem emit_keeps_traceExplains (e : Event) {s : State} (h : s.traceExplains) : (s.emit e).traceExplains := by
  obtain ⟨hlines, hnib, hframes⟩ := h
  refine ⟨?_, fun a => ?_, fun es => ?_⟩
  · rw [emit_trace]
    exact linesAfter_append_emit hlines e
  · rw [emit_trace, hframes]
    obtain ⟨hclosed, hkept⟩ | ⟨bits, hclosed, hacts⟩ := emit_closes e s
    · rw [hclosed, hkept, List.append_nil, hnib]
    · rw [hclosed, hacts]
      exact read_close_eq_lastWrite (hnib a) bits
  · calc framesOf ((s.emit e).trace ++ es)
        = framesOf (s.trace ++ ([e] ++ es)) := by rw [emit_trace, List.append_assoc]
      _ = framesOf s.trace ++ closedFrames s.lines.data s.receiver.frame [e] ++
            closedFrames (s.emit e).lines.data (s.emit e).receiver.frame es := by
          rw [hframes, closedFrames_append, List.append_assoc]; rfl
      _ = framesOf (s.emit e).trace ++ closedFrames (s.emit e).lines.data (s.emit e).receiver.frame es := by
          rw [emit_trace, hframes]

/-- Settles O46: every step leaves the wire alone or emits one event, and both keep it what the trace says. -/
theorem traceExplainsKept : Obligations.TraceExplainsKept := by
  intro s t h hstep
  obtain hw | ⟨e, hw⟩ := step_wire hstep
  · exact traceExplains_of_sameWire hw h
  · exact traceExplains_of_sameWire hw (emit_keeps_traceExplains e h)

/-- Settles O34, row by row of R260's table. -/
theorem speedRangeTable : Obligations.SpeedRangeTable :=
  ⟨rfl, rfl, rfl, rfl, rfl, rfl, rfl, rfl, rfl, rfl, rfl, rfl⟩

/-- Settles O41: `State.reset` and the fields of `Config.platform` that R8 gives a value are so by definition. -/
theorem resetConfiguration : Obligations.ResetConfiguration :=
  ⟨rfl, rfl, rfl, rfl⟩

end Sys2Proof.Machine
end

section
/-! SUPPORT. What a step writes (spec/10_state.md R31 to R42): a step outside BUSY leaves the wire, LAST_POS and VALUE
alone, and a step from BUSY is the next event, the end of the operation, or both. From these, the writers of each field,
the one event of a step, and the invariant. -/

namespace Sys2Proof.Machine

/-! ### Steps outside BUSY -/

/-- No event sequence is in progress (10_state.md R35). -/
def State.notBusy (s : State) : Prop :=
  ∀ op k, s.seq ≠ .busy op k

/-- What a step from `s` to `t` that emits no event can have done (R35): the wire, the configuration, LAST_POS and VALUE
are left alone, SPEED advances only when BUTTON_PRESS is accepted, RESULT is written only with the return to IDLE, and an
operation newly in BUSY has an event to emit. -/
structure SilentStep (s t : State) : Prop where
  wire : SameWire s t
  cfg : t.cfg = s.cfg
  lastPos : t.lastPos = s.lastPos
  value : t.value = s.value
  speed : t.speed = s.speed ∨ (s.seq = .idle ∧ t.seq = .busy .buttonPress 0 ∧ t.speed = s.speed.next)
  result : t.result = s.result ∨ t.seq = .idle
  seq : t.notBusy ∨ ∃ op, t.seq = .busy op 0 ∧ opEvents t.cfg t.speed op ≠ []

theorem notBusy_of_idle {s : State} (h : s.seq = .idle) : s.notBusy := by
  intro op k
  rw [h]
  nofun

theorem notBusy_of_debounce {s : State} (h : s.seq = .debounce) : s.notBusy := by
  intro op k
  rw [h]
  nofun

theorem notBusy_of_waitRelease {s : State} {n : Nat} (h : s.seq = .waitRelease n) : s.notBusy := by
  intro op k
  rw [h]
  nofun

/-- The acceptance of an operation leaves the machine outside BUSY, or before the first event of a sequence (R35). -/
theorem exec_notBusy_or_events {i : Instr} {s t : State} (h : exec i s = .next t) :
    t.notBusy ∨ ∃ op, t.seq = .busy op 0 ∧ opEvents t.cfg t.speed op ≠ [] := by
  by_cases hb : t.notBusy
  · exact .inl hb
  · obtain ⟨op, k, hq⟩ : ∃ op k, t.seq = .busy op k := by simpa [State.notBusy] using hb
    obtain ⟨rfl, rfl, hne⟩ := accepted_events_ne h hq
    exact .inr ⟨op, hq, hne⟩

/-- The acceptance of an operation is silent (R35, R284). -/
theorem exec_silent {i : Instr} {s t : State} (hidle : s.seq = .idle) (h : exec i s = .next t) : SilentStep s t := by
  have hseq := exec_notBusy_or_events h
  have hwire := exec_sameWire h
  obtain ⟨u, hu, hcases⟩ := exec_cases i s
  obtain rfl : u = t := by simpa [hu] using h
  obtain ⟨rfl, -⟩ | ⟨-, rfl⟩ | ⟨p, -, -, rfl⟩ | ⟨p, e, -, -, -, rfl⟩ | ⟨v, rfl, -⟩ | ⟨e, -, rfl, -⟩ := hcases
  · exact ⟨hwire, rfl, rfl, rfl, .inl rfl, .inl rfl, hseq⟩
  · exact ⟨hwire, rfl, rfl, rfl, .inr ⟨hidle, rfl, rfl⟩, .inl rfl, hseq⟩
  · exact ⟨hwire, rfl, rfl, rfl, .inl rfl, .inl rfl, hseq⟩
  · exact ⟨hwire, rfl, rfl, rfl, .inl rfl, .inr rfl, hseq⟩
  · exact ⟨hwire, rfl, rfl, rfl, .inl rfl, .inr rfl, hseq⟩
  · exact ⟨hwire, rfl, rfl, rfl, .inl rfl, .inr rfl, hseq⟩

/-- What a poll can be (R262, R264, R265): the button reads released and the operation ends, the wait goes on, or
STUCK_TIMEOUT ends it. -/
theorem pollStep_cases (n : Nat) (s : State) :
    s.pollStep n = s.afterButton.complete none ∨
      s.pollStep n = { s.afterButton with seq := .waitRelease (n + 1) } ∨
      s.pollStep n = s.afterButton.raise .stuckInput := by
  unfold State.pollStep State.stillPressed
  split
  · exact .inl rfl
  · split
    · split
      · exact .inr (.inr rfl)
      · exact .inr (.inl rfl)
    · exact .inr (.inl rfl)

/-- A poll of the button is silent (R264). -/
theorem pollStep_silent (n : Nat) (s : State) : SilentStep s (s.pollStep n) := by
  have hwire := pollStep_sameWire n s
  obtain h | h | h := pollStep_cases n s <;> rw [h] at hwire ⊢
  · exact ⟨hwire, rfl, rfl, rfl, .inl rfl, .inr rfl, .inl (notBusy_of_idle rfl)⟩
  · exact ⟨hwire, rfl, rfl, rfl, .inl rfl, .inl rfl, .inl (notBusy_of_waitRelease rfl)⟩
  · exact ⟨hwire, rfl, rfl, rfl, .inl rfl, .inr rfl, .inl (notBusy_of_idle rfl)⟩

/-- A step is silent, or it is a step from BUSY (R35). -/
theorem step_silent_or_busy {s t : State} (h : step s = .next t) :
    (s.notBusy ∧ SilentStep s t) ∨ ∃ op k, s.seq = .busy op k ∧ t = s.busyStep op k := by
  obtain ⟨i, u, hq, hfetch, hstep⟩ | ⟨_, _, -, -, hstep⟩ | ⟨hq, -, hstep⟩ | ⟨op, k, hq, hstep⟩ | ⟨hq, hstep⟩ |
    ⟨n, hq, hstep⟩ := step_cases s
  · obtain ⟨port, issue, rfl⟩ := fetch_frame hfetch
    have hs := exec_silent (s := { s with port := port, issue := issue }) hq (hstep.symm.trans h)
    exact .inl ⟨notBusy_of_idle hq, hs.wire, hs.cfg, hs.lastPos, hs.value, hs.speed, hs.result, hs.seq⟩
  · cases hstep.symm.trans h
  · cases hstep.symm.trans h
    exact .inl ⟨notBusy_of_idle hq, ⟨rfl, rfl, rfl⟩, rfl, rfl, rfl, .inl rfl, .inl rfl, .inl (notBusy_of_idle hq)⟩
  · cases hstep.symm.trans h
    exact .inr ⟨op, k, hq, rfl⟩
  · cases hstep.symm.trans h
    exact .inl ⟨notBusy_of_debounce hq, ⟨rfl, rfl, rfl⟩, rfl, rfl, rfl, .inl rfl, .inl rfl,
      .inl (notBusy_of_waitRelease rfl)⟩
  · cases hstep.symm.trans h
    exact .inl ⟨notBusy_of_waitRelease hq, pollStep_silent n s⟩

/-! ### Steps from BUSY -/

/-- What a step from BUSY(op, k) can be (R35): it emits event `k` with an event left, it emits the last event and ends
the operation, or, with no event left, it ends the operation (log 20). -/
theorem busyStep_cases (op : Instr) (k : Nat) (s : State) :
    (∃ e, (opEvents s.cfg s.speed op)[k]? = some e ∧ k + 1 < (opEvents s.cfg s.speed op).length ∧
      s.busyStep op k = { s.emit e with seq := .busy op (k + 1) }) ∨
    (∃ e, (opEvents s.cfg s.speed op)[k]? = some e ∧ (opEvents s.cfg s.speed op).length ≤ k + 1 ∧
      s.busyStep op k = (s.emit e).finish op) ∨
    ((opEvents s.cfg s.speed op).length ≤ k ∧ s.busyStep op k = s.finish op) := by
  cases hget : (opEvents s.cfg s.speed op)[k]? with
  | none => exact .inr (.inr ⟨List.getElem?_eq_none_iff.mp hget, by simp only [State.busyStep, hget]⟩)
  | some e =>
    by_cases hlast : k + 1 < (opEvents s.cfg s.speed op).length
    · exact .inl ⟨e, rfl, hlast, by simp only [State.busyStep, hget, if_pos hlast]⟩
    · exact .inr (.inl ⟨e, rfl, Nat.le_of_not_lt hlast, by simp only [State.busyStep, hget, if_neg hlast]⟩)

/-- What ends an operation (R35): a commit for ENCODER_MOVE (R242), the delay for BUTTON_PRESS (R262), else RESULT. -/
theorem finish_cases (op : Instr) (s : State) :
    (∃ p, op = .encoderMove p ∧ s.finish op = s.commitMove p) ∨
    s.finish op = { s with seq := .debounce } ∨ s.finish op = s.complete none := by
  cases op with
  | encoderMove p => exact .inl ⟨p, rfl, rfl⟩
  | buttonPress => exact .inr (.inl rfl)
  | _ => exact .inr (.inr rfl)

@[simp] theorem finish_cfg (op : Instr) (s : State) : (s.finish op).cfg = s.cfg := by rw [(finish_frame op s).1]
@[simp] theorem finish_speed (op : Instr) (s : State) : (s.finish op).speed = s.speed := by rw [(finish_frame op s).1]
@[simp] theorem finish_receiver (op : Instr) (s : State) : (s.finish op).receiver = s.receiver := (finish_sameWire op s).2.1
@[simp] theorem finish_trace (op : Instr) (s : State) : (s.finish op).trace = s.trace := (finish_sameWire op s).2.2

/-- Ending an operation writes LAST_POS and VALUE only for ENCODER_MOVE (R39, R40, R242). -/
theorem finish_lastPos_value (op : Instr) (s : State) :
    (∃ p, op = .encoderMove p) ∨ ((s.finish op).lastPos = s.lastPos ∧ (s.finish op).value = s.value) := by
  obtain ⟨p, hp, -⟩ | h | h := finish_cases op s
  · exact .inl ⟨p, hp⟩
  · rw [h]; exact .inr ⟨rfl, rfl⟩
  · rw [h]; exact .inr ⟨rfl, rfl⟩

/-- Ending an operation leaves RESULT, or writes it with the return to IDLE (R35, R36). -/
theorem finish_result_or_idle (op : Instr) (s : State) :
    (s.finish op).result = s.result ∨ (s.finish op).seq = .idle := by
  obtain ⟨p, -, h⟩ | h | h := finish_cases op s <;> rw [h]
  · exact .inr rfl
  · exact .inl rfl
  · exact .inr rfl

/-- An event that changes `NIB` is the rise of CS (20_memory.md R71). -/
theorem eq_csRise_of_emit_nib_ne {e : Event} {s : State} (h : (s.emit e).receiver.nib ≠ s.receiver.nib) :
    e = .setLine .cs true := by
  obtain ⟨-, hkept⟩ | ⟨bits, hclosed, -⟩ := emit_closes e s
  · exact absurd hkept h
  · match e with
    | .setLine .cs true => rfl
    | .setLine .cs false | .setLine .wr true | .setLine .wr false | .setLine .data _ | .counterReset => cases hclosed

/-- Settles O9: a silent step leaves the trace, and a step from BUSY emits at most event `k` of its sequence. -/
theorem oneEventPerStep : Obligations.OneEventPerStep := by
  intro s t h
  obtain ⟨-, hs⟩ | ⟨op, k, hq, rfl⟩ := step_silent_or_busy h
  · obtain ⟨-, -, htrace⟩ := hs.wire
    exact .inl htrace
  · obtain ⟨e, hget, -, hb⟩ | ⟨e, hget, -, hb⟩ | ⟨-, hb⟩ := busyStep_cases op k s <;> rw [hb]
    · exact .inr ⟨op, k, e, hq, hget, emit_trace e s⟩
    · exact .inr ⟨op, k, e, hq, hget, (finish_trace op _).trans (emit_trace e s)⟩
    · exact .inl (finish_trace op s)

/-- What a step from BUSY writes: LAST_POS and VALUE only for ENCODER_MOVE, `NIB` only at the rise of CS, RESULT only
with the return to IDLE (R36, R39, R40, R71). -/
structure BusyWrites (op : Instr) (s t : State) : Prop where
  cfg : t.cfg = s.cfg
  speed : t.speed = s.speed
  move : (∃ p, op = .encoderMove p) ∨ (t.lastPos = s.lastPos ∧ t.value = s.value)
  nib : t.receiver.nib ≠ s.receiver.nib → t.trace = s.trace ++ [.setLine .cs true]
  result : t.result = s.result ∨ t.seq = .idle

theorem finish_busyWrites (op : Instr) (s : State) : BusyWrites op s (s.finish op) where
  cfg := finish_cfg op s
  speed := finish_speed op s
  move := finish_lastPos_value op s
  nib hne := absurd (congrArg Receiver.nib (finish_receiver op s)) hne
  result := finish_result_or_idle op s

theorem emit_busyWrites (op : Instr) (e : Event) (q : Seq) (s : State) :
    BusyWrites op s { s.emit e with seq := q } where
  cfg := emit_cfg e s
  speed := emit_speed e s
  move := .inr ⟨emit_lastPos e s, emit_value e s⟩
  nib hne := by rw [← eq_csRise_of_emit_nib_ne hne]; exact emit_trace e s
  result := .inl (emit_result e s)

theorem emit_finish_busyWrites (op : Instr) (e : Event) (s : State) : BusyWrites op s ((s.emit e).finish op) where
  cfg := by simp
  speed := by simp
  move := by simpa using finish_lastPos_value op (s.emit e)
  nib hne := by
    rw [finish_receiver] at hne
    rw [finish_trace, emit_trace, eq_csRise_of_emit_nib_ne hne]
  result := by simpa using finish_result_or_idle op (s.emit e)

theorem busyStep_busyWrites (op : Instr) (k : Nat) (s : State) : BusyWrites op s (s.busyStep op k) := by
  obtain ⟨e, -, -, hb⟩ | ⟨e, -, -, hb⟩ | ⟨-, hb⟩ := busyStep_cases op k s <;> rw [hb]
  · exact emit_busyWrites op e _ s
  · exact emit_finish_busyWrites op e s
  · exact finish_busyWrites op s

/-- Settles O10: what a silent step can write, and what a step from BUSY can. -/
theorem writersOfState : Obligations.WritersOfState := by
  intro s t h
  obtain ⟨-, hs⟩ | ⟨op, k, hq, rfl⟩ := step_silent_or_busy h
  · obtain ⟨hlines, hreceiver, -⟩ := hs.wire
    refine ⟨hs.cfg, ?_, hs.speed.resolve_left, fun hne => absurd hlines hne,
      fun hne => absurd (congrArg Receiver.nib hreceiver) hne, hs.result.resolve_left⟩
    rintro (hne | hne)
    · exact absurd hs.lastPos hne
    · exact absurd hs.value hne
  · have hw := busyStep_busyWrites op k s
    refine ⟨hw.cfg, fun hne => ?_, fun hne => absurd hw.speed hne, fun _ => ⟨op, k, hq⟩,
      fun hne => ⟨⟨op, k, hq⟩, hw.nib hne⟩, hw.result.resolve_left⟩
    obtain ⟨p, rfl⟩ | ⟨hlastPos, hvalue⟩ := hw.move
    · exact ⟨p, k, hq⟩
    · exact hne.elim (absurd hlastPos) (absurd hvalue)

/-! ### The invariant: the wire agrees with SEQ -/

/-- Outside BUSY, SEQ says that the wire is quiet (R33). -/
theorem seqAgrees_iff_quiet {s : State} (h : s.notBusy) : s.seqAgrees ↔ s.quiet := by
  unfold State.seqAgrees
  cases hq : s.seq with
  | busy op k => exact absurd hq (h op k)
  | _ => exact Iff.rfl

/-- The latches and the open frame of two states are the same. -/
def SameOpen (s t : State) : Prop :=
  s.lines = t.lines ∧ s.receiver.frame = t.receiver.frame

/-- In BUSY, an event is left, and the wire is what the events emitted so far leave (R33, R35). -/
theorem seqAgrees_iff_busy {s : State} {op : Instr} {k : Nat} (h : s.seq = .busy op k) :
    s.seqAgrees ↔ k < (opEvents s.cfg s.speed op).length ∧
      SameOpen s (State.emitAll ((opEvents s.cfg s.speed op).take k) (State.powerUp s.cfg)) := by
  unfold State.seqAgrees
  rw [h]
  exact Iff.rfl

/-- What is open after the receiver's reaction depends on what was open, not on `NIB` (R71). -/
theorem sense_frame_congr (l : Line) (v data : Bool) {r q : Receiver} (h : r.frame = q.frame) :
    (r.sense l v data).frame = (q.sense l v data).frame := by
  match l, v with
  | .data, _ => exact h
  | .wr, false => exact h
  | .cs, false => rfl
  | .wr, true => cases hq : q.frame <;> simp [Receiver.sense, h, hq]
  | .cs, true => cases hq : q.frame <;> simp [Receiver.sense, h, hq]

/-- One event does the same to the latches and the open frame of two states that agree on them. -/
theorem emit_sameOpen (e : Event) {s t : State} (h : SameOpen s t) : SameOpen (s.emit e) (t.emit e) := by
  obtain ⟨hlines, hframe⟩ := h
  cases e with
  | counterReset => exact ⟨hlines, hframe⟩
  | setLine l v =>
    refine ⟨congrArg (Lines.set l v) hlines, ?_⟩
    rw [emit_setLine_receiver, emit_setLine_receiver, hlines]
    exact sense_frame_congr l v _ hframe

/-- Quiet is a matter of the latches and the open frame. -/
theorem quiet_of_sameOpen {s t : State} (h : SameOpen s t) (ht : t.quiet) : s.quiet :=
  ⟨h.1.trans ht.1, h.2.trans ht.2⟩

theorem quiet_of_sameWire {s t : State} (h : SameWire s t) (hs : s.quiet) : t.quiet :=
  ⟨h.1.trans hs.1, (congrArg Receiver.frame h.2.1).trans hs.2⟩

/-- A list of events that, begun with the wire quiet, leaves it quiet (R33, R166). -/
def KeepsQuiet (es : List Event) : Prop :=
  ∀ s : State, s.quiet → (s.emitAll es).quiet

theorem keepsQuiet_nil : KeepsQuiet [] := fun _ h => h

theorem KeepsQuiet.append {es fs : List Event} (he : KeepsQuiet es) (hf : KeepsQuiet fs) : KeepsQuiet (es ++ fs) := by
  intro s h
  rw [emitAll_append]
  exact hf _ (he s h)

theorem keepsQuiet_sendBits (v n : Nat) : KeepsQuiet (sendBitsEvents v n) := by
  intro s ⟨hlines, hframe⟩
  rw [sendBitsEvents, emitAll_append, emitAll_bits]
  refine ⟨?_, ?_⟩
  · simp [hlines, Lines.idle]
  · simp [hframe, Receiver.sense]

theorem keepsQuiet_frameCmd (c : Byte) : KeepsQuiet (frameCmdEvents c.toNat) := by
  intro s _
  rw [emitAll_frameCmd]
  exact ⟨rfl, rfl⟩

theorem keepsQuiet_frameWr (a nib : Nat) : KeepsQuiet (frameWrEvents a nib) := by
  intro s _
  rw [emitAll_frameWr]
  exact ⟨rfl, rfl⟩

/-- A register write leaves the wire quiet whatever its address, as each of its frames does. -/
theorem keepsQuiet_writeRegister (addr : Nat) (data : Half) : KeepsQuiet (writeRegisterEvents addr data) := by
  unfold writeRegisterEvents
  induction List.range subwrites with
  | nil => exact keepsQuiet_nil
  | cons i is ih => exact (keepsQuiet_frameWr _ _).append ih

theorem keepsQuiet_writeRun (start : Nat) (ps : List Half) : KeepsQuiet (writeRunEvents start ps) := by
  induction ps generalizing start with
  | nil => exact keepsQuiet_nil
  | cons p ps ih => exact (keepsQuiet_writeRegister start p).append (ih (start + 1))

theorem keepsQuiet_printText (cfg : Config) (text : List Byte) : KeepsQuiet (printTextEvents cfg text) := by
  unfold printTextEvents
  split
  · exact keepsQuiet_writeRun _ _
  · exact keepsQuiet_nil

/-- The event sequence of every operation leaves the wire quiet (R33). -/
theorem keepsQuiet_opEvents (cfg : Config) (speed : Speed) (op : Instr) : KeepsQuiet (opEvents cfg speed op) := by
  cases op with
  | init => exact ((keepsQuiet_frameCmd _).append (keepsQuiet_frameCmd _)).append (keepsQuiet_frameCmd _)
  | powerOff => exact keepsQuiet_frameCmd _
  | powerOn => exact keepsQuiet_frameCmd _
  | sendCommand cmd => exact keepsQuiet_frameCmd cmd
  | frameCmd c => exact keepsQuiet_frameCmd c
  | frameWr a d => exact keepsQuiet_frameWr _ _
  | sendBits v n => exact keepsQuiet_sendBits v n
  | writeRegister addr data => exact keepsQuiet_writeRegister _ data
  | clear => exact keepsQuiet_writeRun _ _
  | fill => exact keepsQuiet_writeRun _ _
  | clearDp => exact keepsQuiet_writeRun _ _
  | printText text => exact keepsQuiet_printText cfg text
  | buttonPress => exact keepsQuiet_printText cfg speed.unitStr
  | setDp pos =>
    simp only [opEvents, setDpEvents]
    split
    · exact keepsQuiet_writeRegister _ _
    · exact keepsQuiet_nil
  | printChar index c =>
    simp only [opEvents, printCharEvents]
    split
    · exact keepsQuiet_writeRegister _ _
    · exact keepsQuiet_nil
  | printInteger n =>
    simp only [opEvents, printIntegerEvents]
    split
    · exact (keepsQuiet_writeRun _ _).append (keepsQuiet_writeRun _ _)
    · exact keepsQuiet_nil
  | encoderMove p => exact fun _ h => h
  | lookupGlyph c => exact keepsQuiet_nil
  | lookupDp pos => exact keepsQuiet_nil
  | reserved opcode => exact keepsQuiet_nil

/-- One more event of a sequence: the wire after `k` events becomes the wire after `k + 1`. -/
theorem emit_sameOpen_take {es : List Event} {k : Nat} {e : Event} (hget : es[k]? = some e) {s u : State}
    (h : SameOpen s (u.emitAll (es.take k))) : SameOpen (s.emit e) (u.emitAll (es.take (k + 1))) := by
  rw [List.take_add_one, hget, emitAll_append]
  exact emit_sameOpen e h

/-- The block is quiet at reset (R33, R44). -/
theorem powerUp_quiet (cfg : Config) : (State.powerUp cfg).quiet := ⟨rfl, rfl⟩

/-- A silent step keeps the invariant: the wire stays quiet, and an operation newly in BUSY has emitted nothing. -/
theorem silentStep_keeps_inv {s t : State} (hb : s.notBusy) (hs : SilentStep s t) (h : s.Inv) : t.Inv := by
  obtain ⟨hmem, hvalue, hagrees⟩ := h
  obtain ⟨-, hreceiver, -⟩ := hs.wire
  have hquiet : t.quiet := quiet_of_sameWire hs.wire ((seqAgrees_iff_quiet hb).mp hagrees)
  refine ⟨by rwa [hreceiver], by rwa [hs.value], ?_⟩
  obtain hidle | ⟨op, hq, hne⟩ := hs.seq
  · exact (seqAgrees_iff_quiet hidle).mpr hquiet
  · exact (seqAgrees_iff_busy hq).mpr ⟨List.length_pos_iff.mpr hne, hquiet⟩

/-- Ending an operation with the wire quiet gives the invariant (R33, R40). -/
theorem finish_inv (op : Instr) {s : State} (hmem : Memory.wf s.receiver.nib = true) (hvalue : 0 ≤ s.value)
    (hquiet : s.quiet) : (s.finish op).Inv := by
  obtain ⟨-, hseq, hfinal⟩ := finish_frame op s
  refine ⟨by rwa [finish_receiver], hfinal hvalue, ?_⟩
  exact (seqAgrees_iff_quiet (hseq.elim notBusy_of_idle notBusy_of_debounce)).mpr
    (quiet_of_sameWire (finish_sameWire op s) hquiet)

/-- A step from BUSY keeps the invariant: it adds the next event to those the wire shows, and with the last one the whole
sequence has left the wire quiet. -/
theorem busyStep_keeps_inv {s : State} {op : Instr} {k : Nat} (hq : s.seq = .busy op k) (h : s.Inv) :
    (s.busyStep op k).Inv := by
  obtain ⟨hmem, hvalue, hagrees⟩ := h
  obtain ⟨hleft, hopen⟩ := (seqAgrees_iff_busy hq).mp hagrees
  obtain ⟨e, hget, hlt, hb⟩ | ⟨e, hget, hlast, hb⟩ | ⟨hover, -⟩ := busyStep_cases op k s
  · rw [hb]
    have hnext := emit_sameOpen_take hget hopen
    refine ⟨emit_wf e hmem, by simpa using hvalue, (seqAgrees_iff_busy rfl).mpr ?_⟩
    rw [emit_cfg, emit_speed]
    exact ⟨hlt, hnext⟩
  · rw [hb]
    have hall := emit_sameOpen_take hget hopen
    rw [List.take_of_length_le hlast] at hall
    have hquiet := quiet_of_sameOpen hall (keepsQuiet_opEvents s.cfg s.speed op _ (powerUp_quiet s.cfg))
    exact finish_inv op (emit_wf e hmem) (by simpa using hvalue) hquiet
  · omega

/-- Settles O44: silent steps keep the wire, and steps from BUSY follow the event sequence to its quiet end. -/
theorem invariantKept : Obligations.InvariantKept := by
  intro s t h hstep
  obtain ⟨hb, hs⟩ | ⟨op, k, hq, rfl⟩ := step_silent_or_busy hstep
  · exact silentStep_keeps_inv hb hs h
  · exact busyStep_keeps_inv hq h

/-! ### The step from IDLE, and reset -/

/-- A word in the issue latch is taken first (log 11). -/
theorem fetch_issue {s : State} {w : InternalWord} (h : s.issue = some w) :
    s.fetch = some (decode (.internal w), { s with issue := none }) := by
  simp [State.fetch, h, decode]

/-- With the issue latch empty the operation the port holds is taken (R290). -/
theorem fetch_port {s : State} {w : HostWord} {rest : List HostWord} (hissue : s.issue = none)
    (hport : s.port = w :: rest) : s.fetch = some (decode (.host w), { s with port := rest }) := by
  simp [State.fetch, hissue, hport, decode]

theorem fetch_nothing {s : State} (hissue : s.issue = none) (hport : s.port = []) : s.fetch = none := by
  simp [State.fetch, hissue, hport]

/-- In IDLE the step is `exec` of the instruction taken (R35). -/
theorem step_idle_ok {s t : State} {i : Instr} (hq : s.seq = .idle) (hf : s.fetch = some (.ok i, t)) :
    step s = exec i t := by
  simp [step, hq, hf]

/-- In IDLE a word that is no operation word is refused (logs 10, 11). -/
theorem step_idle_error {s t : State} {e : DecodeError} (hq : s.seq = .idle) (hf : s.fetch = some (.error e, t)) :
    step s = .refused (.badWord e) := by
  simp [step, hq, hf]

/-- In IDLE with nothing presented the step waits (R311). -/
theorem step_idle_nothing {s : State} (hq : s.seq = .idle) (hf : s.fetch = none) : step s = .next s := by
  simp [step, hq, hf]

/-- Settles O6, clause by clause: what is fetched, and what the step does with it. -/
theorem stepRunsDecodedOperation : Obligations.StepRunsDecodedOperation := by
  intro s hq
  refine ⟨fun w rest i hissue hport hd => ?_, fun w i hissue hd => ?_, fun w rest e hissue hport hd => ?_,
    fun w e hissue hd => ?_, fun hissue hport => ?_⟩
  · exact step_idle_ok hq (hd ▸ fetch_port hissue hport)
  · exact step_idle_ok hq (hd ▸ fetch_issue hissue)
  · exact step_idle_error hq (hd ▸ fetch_port hissue hport)
  · exact step_idle_error hq (hd ▸ fetch_issue hissue)
  · exact step_idle_nothing hq (fetch_nothing hissue hport)

/-- Settles O40: the reset values of R44 are those of `State.powerUp` by definition, and a cell of its empty display
memory holds its power-up value. -/
theorem resetValues : Obligations.ResetValues :=
  fun _ => ⟨rfl, rfl, rfl, rfl, rfl, rfl, rfl, rfl, rfl, rfl, rfl, fun _ _ => rfl⟩

/-- Settles O43: VALUE_INIT is a natural number (R40) and the wire is quiet (R44). -/
theorem invariantAtReset : Obligations.InvariantAtReset :=
  fun cfg => ⟨powerUp_wf cfg, Int.natCast_nonneg cfg.valueInit,
    (seqAgrees_iff_quiet (notBusy_of_idle (powerUp_seq cfg))).mpr (powerUp_quiet cfg)⟩

/-- Settles O45: an empty trace sets no line, closes no frame, and leaves none open. -/
theorem traceExplainsAtReset : Obligations.TraceExplainsAtReset :=
  fun _ => ⟨rfl, fun _ => rfl, fun _ => rfl⟩

end Sys2Proof.Machine
end

section
/-! SUPPORT. What the wire does to the display memory (spec/20_memory.md R72, R77 to R79): the two wire rows run alone,
and the frames of a register write one by one. -/

namespace Sys2Proof.Machine

/-! ### The wire rows run alone -/

/-- A write frame is as R163 writes it. -/
theorem frameWrEvents_eq (a nib : Nat) :
    frameWrEvents a nib =
      [.setLine .cs false] ++ bitByBit 0b101 3 ++ bitByBit a 6 ++ bitByBit nib 4 ++ [.setLine .cs true] := by
  simp only [frameWrEvents, sendBitsEvents_eq]

/-- FRAME_CMD run alone ends after its 40 events and leaves `NIB` (R72, R162; log 12). -/
theorem busy_frameCmd (c : Byte) (s : State) :
    ∃ u, runSteps 40 { s with seq := .busy (.frameCmd c) 0 } = .next u ∧
      EndsAfter (frameCmdEvents c.toNat) s u ∧ u.receiver.nib = s.receiver.nib := by
  have hlen := frameCmdEvents_length c.toNat
  rw [← hlen]
  exact busy_endsAfter rfl (List.length_pos_iff.mp (by omega)) (emitAll_frameCmd c s) fun _ => rfl

/-- FRAME_WR run alone ends after its 44 events and performs `NIB[a] <- d` (R72, R163; log 12). -/
theorem busy_frameWr (a : Addr6) (d : Nibble) (s : State) :
    ∃ u, runSteps 44 { s with seq := .busy (.frameWr a d) 0 } = .next u ∧
      EndsAfter (frameWrEvents a.toNat d.toNat) s u ∧ u.receiver.nib = Nib.write a.toNat d s.receiver.nib := by
  have hlen := frameWrEvents_length a.toNat d.toNat
  have hemit := emitAll_frameWr a.toNat d.toNat s
  rw [Nat.mod_eq_of_lt a.isLt, BitVec.ofNat_toNat, BitVec.setWidth_eq] at hemit
  rw [← hlen]
  exact busy_endsAfter rfl (List.length_pos_iff.mp (by omega)) hemit fun _ => rfl

/-- Settles O16: each row runs through its own frame, and the cells are read after the one write of FRAME_WR. -/
theorem wireFramesAlone : Obligations.WireFramesAlone := by
  intro c a d s
  refine ⟨rfl, ?_, rfl, ?_⟩
  · rw [← sendCommandEvents_eq]
    exact busy_frameCmd c s
  · obtain ⟨u, hrun, hends, hnib⟩ := busy_frameWr a d s
    rw [frameWrEvents_eq] at hends
    refine ⟨u, hrun, hends, ?_, fun b hb => ?_⟩
    · rw [hnib, nib_read_write_same]
    · rw [hnib, nib_read_write_other hb]

/-- Settles O20: the second run writes the same payload to the same cell. -/
theorem writeFrameIsIdempotent : Obligations.WriteFrameIsIdempotent := by
  intro a d s
  obtain ⟨u, hu, -, hunib⟩ := busy_frameWr a d s
  obtain ⟨v, hv, -, hvnib⟩ := busy_frameWr a d u
  refine ⟨u, v, hu, hv, ?_⟩
  rw [hvnib, hunib, nib_write_write]

/-! ### A register write frame by frame -/

/-- The first `k` frames of a register write (R163). -/
def subWriteEvents (addr : Nat) (data : Half) (k : Nat) : List Event :=
  (List.range k).flatMap fun i => frameWrEvents (subAddr addr i) (subNib data i)

theorem subWriteEvents_succ (addr : Nat) (data : Half) (k : Nat) :
    subWriteEvents addr data (k + 1) =
      subWriteEvents addr data k ++ frameWrEvents (subAddr addr k) (subNib data k) := by
  simp [subWriteEvents, List.range_succ]

theorem subWriteEvents_length (addr : Nat) (data : Half) (k : Nat) : (subWriteEvents addr data k).length = 44 * k := by
  induction k with
  | zero => rfl
  | succ k ih => rw [subWriteEvents_succ, List.length_append, ih, frameWrEvents_length]; omega

theorem subWriteEvents_prefix (addr : Nat) (data : Half) {k n : Nat} (h : k ≤ n) :
    subWriteEvents addr data k <+: subWriteEvents addr data n := by
  induction n, h using Nat.le_induction with
  | base => exact List.prefix_rfl
  | succ n _ ih => exact ih.trans (subWriteEvents_succ addr data n ▸ List.prefix_append _ _)

/-- The first `44 k` events of a register write are its first `k` frames. -/
theorem take_writeRegisterEvents (addr : Nat) (data : Half) {k : Nat} (h : k ≤ 5) :
    (writeRegisterEvents addr data).take (44 * k) = subWriteEvents addr data k := by
  have hpre := List.prefix_iff_eq_take.mp (subWriteEvents_prefix addr data h)
  rw [subWriteEvents_length] at hpre
  exact hpre.symm

/-- After `k` frames the first `k` cells of the register write hold their nibbles, and every other cell what it held
(R77, R78). -/
theorem read_emitAll_subWrites {addr : Nat} (haddr : addr ≤ 11) (data : Half) {k : Nat} (hk : k ≤ 5) (c : Nat)
    (s : State) :
    Nib.read c (s.emitAll (subWriteEvents addr data k)).receiver.nib =
      if 4 * addr ≤ c ∧ c < 4 * addr + k then some (BitVec.ofNat 4 (subNib data (c - 4 * addr)))
      else Nib.read c s.receiver.nib := by
  induction k with
  | zero => rw [if_neg (by omega)]; rfl
  | succ k ih =>
    have hcell : subAddr addr k % 64 = 4 * addr + k := Nat.mod_eq_of_lt (by unfold subAddr; omega)
    rw [subWriteEvents_succ, emitAll_append, emitAll_frameWr, hcell, nib_read_write, ih (by omega)]
    by_cases hc : c = 4 * addr + k
    · rw [if_pos hc, if_pos (by omega), hc, Nat.add_sub_cancel_left]
    · rw [if_neg hc]
      exact if_congr (by omega) rfl rfl

/-- An operation part of the way through its events, or at their end, has shown the receiver those events and no more
(R35, R71). -/
theorem busy_receiver {op : Instr} {s : State} {es : List Event} (hes : opEvents s.cfg s.speed op = es) {m : Nat}
    (hm : m ≤ es.length) (hpos : 0 < es.length) :
    ∃ u, runSteps m { s with seq := .busy op 0 } = .next u ∧ u.receiver = (s.emitAll (es.take m)).receiver := by
  obtain hlt | rfl := hm.lt_or_eq
  · refine ⟨_, busy_prefix (s := s.accept op) (k := 0) hes (by omega) rfl, ?_⟩
    rw [State.accept, emitAll_seq_update, List.drop_zero]
  · refine ⟨_, accept_runs hes (List.length_pos_iff.mp hpos), ?_⟩
    rw [finish_receiver, List.take_length]

/-- Settles O18: after `44 k` steps the receiver has seen the first `k` frames, which write the first `k` cells. -/
theorem registerWriteIsNotAtomic : Obligations.RegisterWriteIsNotAtomic := by
  intro addr data s k haddr hk
  have hlen := writeRegisterEvents_length addr.toNat data
  obtain ⟨u, hrun, hrec⟩ := busy_receiver (op := .writeRegister addr data) (s := s) (m := 44 * k) rfl
    (by rw [opEvents, hlen]; omega) (by rw [opEvents, hlen]; omega)
  rw [opEvents, take_writeRegisterEvents _ _ hk] at hrec
  refine ⟨u, hrun, fun i hi => ?_, fun a ha => ?_⟩
  · rw [hrec, read_emitAll_subWrites haddr data hk, if_pos (by omega), Nat.add_sub_cancel_left, subNib]
  · rw [hrec, read_emitAll_subWrites haddr data hk, if_neg (by omega)]

end Sys2Proof.Machine
end

section
/-! SUPPORT. The decoder and the encoder (spec/30_encoding.md R100 to R109): what an unassigned opcode decodes to, and
which words decode at all; from these, that the two undo each other. -/

namespace Sys2Proof.Machine

/-! ### Opcodes outside the map -/

/-- An opcode outside the map of R104 has no row. -/
theorem hostRow_eq_none {o : Byte} (h : o ∉ assignedOpcodes) : hostRow o = none := by
  rw [← Option.isNone_iff_eq_none, hostRow_isNone]
  simpa using h

/-- An opcode outside the map decodes as reserved, whatever its operands (R109). -/
theorem decode_unassigned {w : HostWord} (h : w.opcode ∉ assignedOpcodes) :
    decode (.host w) = .ok (.reserved w.opcode) := by
  simp only [decode, decodeHost, hostRow_eq_none h]

theorem wf_reserved_iff (o : Byte) : (Instr.reserved o).wf = true ↔ o ∉ assignedOpcodes := by
  simp [Instr.wf]

/-! ### From instructions to words and back -/

/-- Settles O2: a host row is read back by its own line of the opcode map; a reserved opcode has no line; SEND_BITS has
its bit count checked; and the wire frames are read back field by field. -/
theorem encodeThenDecode : Obligations.EncodeThenDecode := by
  intro i hwf
  cases i with
  | reserved opcode => exact decode_unassigned (w := ⟨opcode, []⟩) ((wf_reserved_iff opcode).mp hwf)
  | sendBits v n => exact if_pos hwf
  | frameCmd c => exact decodeWire_frameCmd c
  | frameWr a d => exact decodeWire_frameWr a d
  | _ => rfl

/-! ### From words to instructions and back -/

theorem natOfBits_lt (bits : List Bool) : natOfBits bits < 2 ^ bits.length := by
  induction bits with
  | nil => simp [natOfBits]
  | cons b bs ih =>
    have hb : b.toNat * 2 ^ bs.length ≤ 1 * 2 ^ bs.length := Nat.mul_le_mul_right _ (Bool.toNat_le b)
    rw [natOfBits_cons, List.length_cons, Nat.pow_succ]
    omega

/-- A bit string is the bits of the number it stands for (R71, R74). -/
theorem bitsMsb_natOfBits (bits : List Bool) : bitsMsb bits.length (natOfBits bits) = bits := by
  induction bits with
  | nil => rfl
  | cons b bs ih =>
    have hlow : bitsMsb bs.length (natOfBits (b :: bs)) = bs := by
      rw [← bitsMsb_mod, natOfBits_cons, Nat.mul_add_mod_of_lt (natOfBits_lt bs), ih]
    have hhigh : (natOfBits (b :: bs)).testBit bs.length = b := by
      rw [natOfBits_cons, Nat.mul_comm, Nat.testBit_two_pow_mul_add _ (natOfBits_lt bs), if_neg (lt_irrefl _),
        Nat.sub_self]
      cases b <;> rfl
    rw [List.length_cons, bitsMsb, hhigh, hlow]

/-- A field of `n` bits is read without loss (R101, R102). -/
theorem bitsMsb_field {n : Nat} {bits : List Bool} (h : bits.length = n) :
    bitsMsb n (BitVec.ofNat n (natOfBits bits)).toNat = bits := by
  rw [BitVec.toNat_ofNat, bitsMsb_mod, ← h, bitsMsb_natOfBits]

/-- What decodes as a wire frame is a command frame or a write frame, bit for bit (R101, R102, R110). -/
theorem decodeWire_ok {bits : List Bool} {i : Instr} (h : decodeWire bits = .ok i) :
    (∃ c, i = .frameCmd c ∧ frameCmdBits c = bits) ∨ (∃ a d, i = .frameWr a d ∧ frameWrBits a d = bits) := by
  unfold decodeWire at h
  split at h
  case isTrue hcmd =>
    obtain ⟨hlen, hprefix⟩ := hcmd
    refine .inl ⟨_, (Except.ok.inj h).symm, ?_⟩
    have hc := bitsMsb_field (n := 8) (bits := bits.drop 4) (by simp [hlen])
    calc frameCmdBits _ = [true, false, false, false] ++ bits.drop 4 := congrArg _ hc
      _ = bits := by rw [← hprefix, List.take_append_drop]
  case isFalse =>
    split at h
    case isTrue hwr =>
      obtain ⟨hlen, hprefix⟩ := hwr
      refine .inr ⟨_, _, (Except.ok.inj h).symm, ?_⟩
      have ha := bitsMsb_field (n := 6) (bits := (bits.drop 3).take 6) (by simp [hlen])
      have hd := bitsMsb_field (n := 4) (bits := bits.drop 9) (by simp [hlen])
      have hrest : (bits.drop 3).take 6 ++ bits.drop 9 = bits.drop 3 := by
        simpa only [List.drop_drop] using List.take_append_drop 6 (bits.drop 3)
      calc frameWrBits _ _ = [true, false, true] ++ (bits.drop 3).take 6 ++ bits.drop 9 :=
            congrArg₂ (fun a d => [true, false, true] ++ a ++ d) ha hd
        _ = bits := by rw [List.append_assoc, hrest, ← hprefix, List.take_append_drop]
    case isFalse => cases h

/-- What decodes as a host word is reserved, or is the host word of what it decodes to (R104, R109). -/
theorem decodeHost_ok {w : HostWord} {i : Instr} (h : decodeHost w = .ok i) :
    i.wf = true ∧ (i = .reserved w.opcode ∨ encode i = .host w) := by
  unfold decodeHost at h
  split at h
  case h_1 hrow =>
    obtain rfl := Except.ok.inj h
    have hwf := hostRow_isNone w.opcode
    rw [hrow] at hwf
    exact ⟨hwf.symm, .inl rfl⟩
  case h_2 hrow =>
    split at h
    case h_1 hread =>
      obtain rfl := Except.ok.inj h
      obtain ⟨hwf, -, henc⟩ := hostRow_reads hrow hread
      exact ⟨hwf, .inr henc⟩
    case h_2 => cases h

/-- What decodes is well formed, and is reserved or encodes to the word it was read from. -/
theorem decode_ok {w : Word} {i : Instr} (h : decode w = .ok i) :
    i.wf = true ∧ ((∃ opcode, i = .reserved opcode) ∨ encode i = w) := by
  match w with
  | .host w =>
    obtain ⟨hwf, hres | henc⟩ := decodeHost_ok h
    · exact ⟨hwf, .inl ⟨_, hres⟩⟩
    · exact ⟨hwf, .inr henc⟩
  | .internal (.micro v n) =>
    simp only [decode, decodeInternal] at h
    split at h
    case isTrue hn =>
      obtain rfl := Except.ok.inj h
      exact ⟨hn, .inr rfl⟩
    case isFalse => cases h
  | .internal (.wire bits) =>
    obtain ⟨c, rfl, rfl⟩ | ⟨a, d, rfl, rfl⟩ := decodeWire_ok h
    · exact ⟨rfl, .inr rfl⟩
    · exact ⟨rfl, .inr rfl⟩

/-- Settles O3: only a reserved opcode drops operands. -/
theorem decodeThenEncode : Obligations.DecodeThenEncode := by
  intro w i hdec hassigned
  obtain ⟨-, ⟨opcode, hres⟩ | henc⟩ := decode_ok hdec
  · exact absurd hres (hassigned opcode)
  · exact henc

/-- Settles O4. -/
theorem decodedIsWellFormed : Obligations.DecodedIsWellFormed :=
  fun _ _ hdec => (decode_ok hdec).1

/-- Settles O1: on each word the decoder computes. -/
theorem writtenOutWordsDecode : Obligations.WrittenOutWordsDecode :=
  ⟨rfl, rfl, rfl, rfl, rfl, rfl, rfl⟩

/-! ### What a reserved opcode does -/

/-- An error that ends an operation in its acceptance step changes nothing but RESULT (R281, R284). -/
theorem raise_of_idle {s : State} (h : s.seq = .idle) (e : Status) :
    s.raise e = { s with result := { status := e, value := none } } := by
  rw [State.raise, ← h]

theorem exec_reserved {s : State} (h : s.seq = .idle) (opcode : Byte) :
    exec (.reserved opcode) s = .next { s with result := { status := .illegalOperation, value := none } } :=
  congrArg Host.Outcome.next (raise_of_idle h _)

/-- Settles O5: the word is fetched from the port, decodes as reserved, and raises IllegalOperation. -/
theorem unassignedOpcodeIsIllegal : Obligations.UnassignedOpcodeIsIllegal := by
  intro s w rest hopcode hidle hissue hport
  have hdec : decode (.host w) = .ok (.reserved w.opcode) := decode_unassigned hopcode
  have hexec := exec_reserved (s := { s with port := rest }) hidle w.opcode
  exact ⟨hdec, hexec, (step_idle_ok hidle (hdec ▸ fetch_port hissue hport)).trans hexec⟩

end Sys2Proof.Machine
end

section
/-! SUPPORT. ENCODER_MOVE (spec/43_quantizer.md R241, R242): its check as the range the spec writes, its acceptance or
rejection, and its one event. -/

namespace Sys2Proof.Machine

/-- The quantities R241 bounds: new_position, the difference, the scaled step and the unclamped VALUE. -/
def moveQuantities (p : Int) (r : Nat) (s : State) : List Int :=
  [p, p - s.lastPos, moveStep p r s, moveTarget p r s]

/-- The check passes exactly when, with `VALUE_WIDTH` set, every bounded quantity is in range (R241). -/
theorem checkEncoderMove_eq_ok_iff (p : Int) (r : Nat) (s : State) :
    checkEncoderMove p r s = .ok ↔
      ∀ w, s.cfg.valueWidth = some w → ∀ x ∈ moveQuantities p r s,
        -(2 : Rat) ^ ((w : Int) - 1) ≤ x ∧ (x : Rat) ≤ (2 : Rat) ^ ((w : Int) - 1) - 1 := by
  simp only [← fitsWidth_iff]
  cases hw : s.cfg.valueWidth with
  | none => simp [checkEncoderMove, hw]
  | some w => simp [checkEncoderMove, hw, moveQuantities, and_assoc]

/-- The only error the check finds is OperandRange (R115). -/
theorem checkEncoderMove_of_ne_ok {p : Int} {r : Nat} {s : State} (h : checkEncoderMove p r s ≠ .ok) :
    checkEncoderMove p r s = .operandRange := by
  unfold checkEncoderMove at h ⊢
  split at h
  · exact absurd rfl h
  · split at h
    · exact absurd rfl h
    · next hfit => exact if_neg hfit

theorem exec_encoderMove_accepted {p : Int} {s : State} (h : checkEncoderMove p s.drawnPulse s = .ok) :
    exec (.encoderMove p) s = .next (State.accept (.encoderMove p) { s.afterPulse with rotspeed := s.drawnPulse }) := by
  simp only [exec, execEncoderMove, h]

theorem exec_encoderMove_rejected {p : Int} {s : State} (h : checkEncoderMove p s.drawnPulse s ≠ .ok) :
    exec (.encoderMove p) s = .next (s.afterPulse.raise .operandRange) := by
  simp only [exec, execEncoderMove, checkEncoderMove_of_ne_ok h]

/-- The step of an accepted ENCODER_MOVE emits `CounterReset` and commits the movement (R242). -/
theorem run_encoderMove (p : Int) (s : State) :
    runSteps 1 (s.accept (.encoderMove p)) = .next ((s.emit .counterReset).commitMove p) :=
  accept_runs (es := [.counterReset]) rfl (by simp)

/-- The movement commits the clamped VALUE for the count that was drawn (R242). -/
theorem commitMove_eq (p : Int) (s : State) {v : Int} (hv : moveTarget p s.rotspeed s = v) :
    s.commitMove p =
      { s with
        lastPos := p
        value := if v < 0 then 0 else v
        seq := .idle
        result := { status := .ok, value := some (.value (if v < 0 then 0 else v)) } } := by
  simp only [State.commitMove, State.complete, hv, max_comm (0 : Int), max_def_lt]

/-- Settles O32: the check is R241's range; passed, the operation runs through its one event; failed, it is rejected. -/
theorem encoderMoveUpdatesValue : Obligations.EncoderMoveUpdatesValue := by
  rintro p s _ _ _ rfl rfl rfl
  have hcheck := checkEncoderMove_eq_ok_iff p s.drawnPulse s
  refine ⟨encodeThenDecode (.encoderMove p) rfl, fun hrange => ⟨?_, ?_⟩, fun w hw hout => ?_⟩
  · exact exec_encoderMove_accepted (hcheck.mpr hrange)
  · refine (run_encoderMove p { s.afterPulse with rotspeed := s.drawnPulse }).trans ?_
    exact congrArg Host.Outcome.next (commitMove_eq p _ rfl)
  · refine exec_encoderMove_rejected fun hok => ?_
    obtain ⟨x, hx, hbelow | habove⟩ := hout
    · exact absurd (hcheck.mp hok w hw x hx).1 (not_le.mpr hbelow)
    · exact absurd (hcheck.mp hok w hw x hx).2 (not_le.mpr habove)

end Sys2Proof.Machine
end

section
/-! SUPPORT. The table operations (spec/40_tables.md R131 to R138): what the two index functions find, and what
LOOKUP_GLYPH and LOOKUP_DP answer with it. -/

namespace Sys2Proof.Machine

/-! ### The glyph ROM -/

theorem charPattern_space (cfg : Config) : charPattern cfg 0x20 = some 0x0000 := rfl

/-- The first ROM range, `'*'` to `'9'` (R131). -/
theorem charPattern_starToNine (cfg : Config) {c : Byte} (h : 0x2A ≤ c.toNat ∧ c.toNat ≤ 0x39) :
    charPattern cfg c = some cfg.glyph[c.toNat - 0x2A] := by
  have hspace : c.toNat ≠ 0x20 := by omega
  have hindex : glyphIndex c = .index ⟨c.toNat - 0x2A, by omega⟩ := by rw [glyphIndex, if_neg hspace, dif_pos h]
  rw [charPattern, hindex]
  rfl

/-- The second ROM range, `'A'` to `'Z'` (R131). -/
theorem charPattern_letter (cfg : Config) {c : Byte} (h : 0x41 ≤ c.toNat ∧ c.toNat ≤ 0x5A) :
    charPattern cfg c = some cfg.glyph[c.toNat - 0x41 + 16] := by
  have hspace : c.toNat ≠ 0x20 := by omega
  have hfirst : ¬ (0x2A ≤ c.toNat ∧ c.toNat ≤ 0x39) := by omega
  have hindex : glyphIndex c = .index ⟨c.toNat - 0x41 + 16, by omega⟩ := by
    rw [glyphIndex, if_neg hspace, dif_neg hfirst, dif_pos h]
  rw [charPattern, hindex]
  rfl

/-- Outside the alphabet there is no pattern (R131, R135). -/
theorem charPattern_eq_none (cfg : Config) {c : Byte} (hspace : c ≠ 0x20)
    (hfirst : ¬ (0x2A ≤ c.toNat ∧ c.toNat ≤ 0x39)) (hletter : ¬ (0x41 ≤ c.toNat ∧ c.toNat ≤ 0x5A)) :
    charPattern cfg c = none := by
  have hcode : c.toNat ≠ 0x20 := fun h => hspace (BitVec.eq_of_toNat_eq h)
  rw [charPattern, glyphIndex, if_neg hcode, dif_neg hfirst, dif_neg hletter]

theorem exec_lookupGlyph_of_some {c : Byte} {s : State} {p : Half} (h : charPattern s.cfg c = some p) :
    exec (.lookupGlyph c) s = .next (s.complete (some (.pattern p))) := by
  simp only [exec, execLookupGlyph, h]

theorem exec_lookupGlyph_of_none {c : Byte} {s : State} (h : charPattern s.cfg c = none) :
    exec (.lookupGlyph c) s = .next (s.raise .unsupportedCharacter) := by
  simp only [exec, execLookupGlyph, checkLookupGlyph, h]

/-- Settles O12, range by range of R131. -/
theorem lookupGlyphResult : Obligations.LookupGlyphResult := by
  intro c s
  refine ⟨encodeThenDecode (.lookupGlyph c) rfl, ?_, fun h => ?_, fun h => ?_, fun hspace hfirst hletter => ?_⟩
  · rintro rfl
    exact exec_lookupGlyph_of_some (charPattern_space s.cfg)
  · exact exec_lookupGlyph_of_some (charPattern_starToNine s.cfg h)
  · exact exec_lookupGlyph_of_some (charPattern_letter s.cfg h)
  · exact exec_lookupGlyph_of_none (charPattern_eq_none s.cfg hspace hfirst hletter)

/-! ### The decimal-point table -/

/-- Positions 1 to 9: the mask is entry `p` of the configuration, in register 11 for the first three and 10 for the
others (R137). -/
theorem dpEntry_position (cfg : Config) (p : Fin 9) :
    dpEntry cfg (p.val + 1) = some (if p.val < 3 then 11 else 10, cfg.dpMask[p]) := by
  have hindex : ((p.val : Int) + 1 - 1).toNat = p.val := by omega
  unfold dpEntry
  by_cases hp : p.val < 3
  · rw [dif_pos (by omega), if_pos hp]
    simp only [hindex, Fin.getElem_fin]
  · rw [dif_neg (by omega), dif_pos (by omega), if_neg hp]
    simp only [hindex, Fin.getElem_fin]

/-- Outside 1 to 9 there is no entry (R137). -/
theorem dpEntry_eq_none (cfg : Config) {pos : Int} (h : pos < 1 ∨ 9 < pos) : dpEntry cfg pos = none := by
  rw [dpEntry, dif_neg (by omega), dif_neg (by omega)]

/-- LOOKUP_DP always completes, with what the table holds for its position, if anything (R138). -/
theorem exec_lookupDp (pos : Int) (s : State) :
    exec (.lookupDp pos) s = .next (s.complete ((dpEntry s.cfg pos).map fun e => .dpEntry e.1 e.2)) := by
  simp only [exec, execLookupDp]
  cases dpEntry s.cfg pos <;> rfl

/-- Settles O13: the answer is the table's entry, by position. -/
theorem lookupDpResult : Obligations.LookupDpResult := by
  intro pos s
  refine ⟨encodeThenDecode (.lookupDp pos) rfl, fun p hpos hlow => ?_, fun p hpos hhigh => ?_, fun hout => ?_⟩
  · rw [exec_lookupDp, hpos, dpEntry_position, if_pos (by omega)]
    rfl
  · rw [exec_lookupDp, hpos, dpEntry_position, if_neg (by omega)]
    rfl
  · rw [exec_lookupDp, dpEntry_eq_none s.cfg hout]
    rfl

end Sys2Proof.Machine
end

section
/-! SUPPORT. The protocol engine (spec/41_protocol.md R160 to R166): SEND_BITS, SEND_COMMAND and WRITE_REGISTER run to their
end, the bits of the frames they close, two register writes one after the other, and the frame discipline. -/

namespace Sys2Proof.Machine

/-! ### SEND_BITS and SEND_COMMAND -/

/-- Settles O14: the accepted operation runs through its events, which reach the open frame, if there is one. -/
theorem sendBitsEmitsBits : Obligations.SendBitsEmitsBits := by
  intro v n s hn
  have hpos : 0 < n := by
    simp only [List.mem_cons, List.not_mem_nil, or_false] at hn
    omega
  have hlen := sendBitsEvents_length v n
  have hrun := accept_runs (op := .sendBits v n) (s := s) rfl (List.length_pos_iff.mp (by rw [opEvents, hlen]; omega))
  rw [opEvents, hlen, emitAll_sendBits hpos, sendBitsEvents_eq, bitsMsb_eq_lowBits] at hrun
  rw [sendBitsEvents_eq] at hlen
  exact ⟨rfl, hlen, hrun⟩

/-- A command frame as R101 writes it: 1000 and the command. -/
theorem frameCmdBits_eq_lowBits (c : Byte) : frameCmdBits c = [true, false, false, false] ++ lowBits c.toNat 8 :=
  congrArg ([true, false, false, false] ++ ·) (bitsMsb_eq_lowBits 8 c.toNat)

/-- Settles O15: the operation runs through one command frame, which closes with its twelve bits and writes no cell. -/
theorem sendCommandEmitsFrame : Obligations.SendCommandEmitsFrame := by
  intro cmd s
  have hlen : (sendCommandEvents cmd).length = 40 := frameCmdEvents_length cmd.toNat
  have hrun := busy_endsAfter (op := .sendCommand cmd) rfl (List.length_pos_iff.mp (by rw [opEvents, hlen]; omega))
    (emitAll_frameCmd cmd s) fun _ => rfl
  have hclosed := closedFrames_frameCmd s.lines.data s.receiver.frame cmd []
  rw [List.append_nil, frameCmdBits_eq_lowBits] at hclosed
  rw [opEvents, hlen] at hrun
  rw [← sendCommandEvents_eq]
  exact ⟨encodeThenDecode (.sendCommand cmd) rfl, rfl, hrun, hlen, hclosed⟩

/-! ### The operand checks of the operations that drive the lines -/

/-- The operand check of R115 for an operation that begins an event sequence when it passes (R284); ENCODER_MOVE, whose
check needs the pulse count, is left out. -/
def operandCheck (cfg : Config) : Instr → Status
  | .writeRegister addr _ => checkWriteRegister addr
  | .printInteger n => checkPrintInteger n
  | .printChar index c => checkPrintChar cfg index c
  | .printText text => checkPrintText cfg text
  | _ => .ok

/-- An operation whose operand check fails ends at once with that error (R284, R286). -/
theorem exec_of_operandCheck_ne_ok {i : Instr} {s : State} (h : operandCheck s.cfg i ≠ .ok) :
    exec i s = .next (s.raise (operandCheck s.cfg i)) := by
  cases i with
  | writeRegister addr data =>
    simp only [exec, execWriteRegister]
    split
    exacts [absurd ‹_› h, rfl]
  | printInteger n =>
    simp only [exec, execPrintInteger]
    split
    exacts [absurd ‹_› h, rfl]
  | printChar index c =>
    simp only [exec, execPrintChar]
    split
    exacts [absurd ‹_› h, rfl]
  | printText text =>
    simp only [exec, execPrintText]
    split
    exacts [absurd ‹_› h, rfl]
  | _ => exact absurd rfl h

/-- An operation left in BUSY by its acceptance has passed its operand check. -/
theorem operandCheck_of_accepted {i op : Instr} {k : Nat} {s t : State} (h : exec i s = .next t)
    (hq : t.seq = .busy op k) : operandCheck s.cfg i = .ok := by
  by_contra hne
  rw [exec_of_operandCheck_ne_ok hne] at h
  cases h
  cases hq

/-- The acceptance of an operation leaves the configuration alone (R30). -/
theorem exec_cfg {i : Instr} {s t : State} (h : exec i s = .next t) : t.cfg = s.cfg := by
  obtain ⟨u, hu, hcases⟩ := exec_cases i s
  obtain rfl : u = t := by simpa [hu] using h
  obtain ⟨rfl, -⟩ | ⟨-, rfl⟩ | ⟨p, -, -, rfl⟩ | ⟨p, e, -, -, -, rfl⟩ | ⟨v, rfl, -⟩ | ⟨e, -, rfl, -⟩ := hcases <;> rfl

theorem checkWriteRegister_eq_ok_iff (addr : Nibble) : checkWriteRegister addr = .ok ↔ addr.toNat ≤ 11 := by
  simp [checkWriteRegister]

theorem length_le_of_checkPrintInteger {n : Int} (h : checkPrintInteger n = .ok) : (str10 n.toNat).length ≤ 10 := by
  by_contra hlong
  rw [checkPrintInteger, if_pos (Nat.lt_of_not_le hlong)] at h
  split at h <;> cases h

theorem index_le_of_checkPrintChar {cfg : Config} {index : Int} {c : Byte} (h : checkPrintChar cfg index c = .ok) :
    index ≤ 9 := by
  by_contra hout
  rw [checkPrintChar, if_pos (.inr (Int.lt_of_not_ge hout))] at h
  cases h

theorem length_le_of_checkPrintText {cfg : Config} {text : List Byte} (h : checkPrintText cfg text = .ok) :
    text.length ≤ 10 := by
  by_contra hlong
  rw [checkPrintText, if_pos (Nat.lt_of_not_le hlong)] at h
  cases h

/-! ### WRITE_REGISTER -/

theorem exec_writeRegister_accepted {addr : Nibble} (h : addr.toNat ≤ 11) (data : Half) (s : State) :
    exec (.writeRegister addr data) s = .next (s.accept (.writeRegister addr data)) := by
  simp only [exec, execWriteRegister, (checkWriteRegister_eq_ok_iff addr).mpr h]

theorem exec_writeRegister_rejected {addr : Nibble} (h : addr.toNat > 11) (data : Half) (s : State) :
    exec (.writeRegister addr data) s = .next (s.raise .operandRange) := by
  have hcheck : operandCheck s.cfg (.writeRegister addr data) = .operandRange := if_pos h
  rw [exec_of_operandCheck_ne_ok (by rw [hcheck]; decide), hcheck]

/-- An accepted WRITE_REGISTER ends after its 220 events with its five cells written (R163, R164). -/
theorem busy_writeRegister {addr : Nibble} (h : addr.toNat ≤ 11) (data : Half) (s : State) :
    ∃ u, runSteps 220 { s with seq := .busy (.writeRegister addr data) 0 } = .next u ∧
      EndsAfter (registerWrite addr.toNat data) s u ∧
      u.receiver.nib = writeRegisterNib addr.toNat data s.receiver.nib := by
  rw [← writeRegisterEvents_length addr.toNat data, ← writeRegisterEvents_eq]
  exact busy_endsAfter rfl (writeRegisterEvents_ne _ _) (emitAll_writeRegister h data s) fun _ => rfl

/-- Outside its five cells a register write leaves the memory alone (R163, R164). -/
theorem read_writeRegisterNib_outside {addr c : Nat} (h : c < 4 * addr ∨ 4 * addr + 4 < c) (data : Half) (m : Nib) :
    Nib.read c (writeRegisterNib addr data m) = Nib.read c m := by
  rw [read_writeRegisterNib]
  repeat' rw [if_neg (by omega)]

/-- A register below the one written keeps its contents (R164, R165). -/
theorem reg_writeRegisterNib_below {r addr : Nat} (h : r < addr) (data : Half) (m : Nib) :
    (writeRegisterNib addr data m).reg r = m.reg r := by
  simp only [Nib.reg, Nib.cell]
  repeat' rw [read_writeRegisterNib_outside (by omega)]

/-- A write frame as R102 writes it: 101, the address, the payload. -/
theorem frameWrBits_eq_lowBits (a : Addr6) (d : Nibble) :
    frameWrBits a d = [true, false, true] ++ lowBits a.toNat 6 ++ lowBits d.toNat 4 :=
  congrArg₂ (fun x y => [true, false, true] ++ x ++ y) (bitsMsb_eq_lowBits 6 a.toNat) (bitsMsb_eq_lowBits 4 d.toNat)

/-- The bits of sub-write `i`, whose address needs no truncation (R106, R163). -/
theorem frameWrBits_subWrite {addr i : Nat} (haddr : addr ≤ 11) (hi : i ≤ 4) (d : Nibble) :
    frameWrBits (BitVec.ofNat 6 (subAddr addr i)) d =
      [true, false, true] ++ lowBits (4 * addr + i) 6 ++ lowBits d.toNat 4 := by
  rw [frameWrBits_eq_lowBits, BitVec.toNat_ofNat, Nat.mod_eq_of_lt (by unfold subAddr; omega), subAddr]

/-- The five frames of a register write, bit by bit (R163). -/
theorem closedFrames_registerWrite {addr : Nat} (haddr : addr ≤ 11) (data : Half) (d : Bool) (f : Option (List Bool)) :
    closedFrames d f (registerWrite addr data) =
      [[true, false, true] ++ lowBits (4 * addr) 6 ++ lowBits (data.extractLsb' 12 4).toNat 4,
       [true, false, true] ++ lowBits (4 * addr + 1) 6 ++ lowBits (data.extractLsb' 8 4).toNat 4,
       [true, false, true] ++ lowBits (4 * addr + 2) 6 ++ lowBits (data.extractLsb' 4 4).toNat 4,
       [true, false, true] ++ lowBits (4 * addr + 3) 6 ++ lowBits (data.extractLsb' 0 4).toNat 4,
       [true, false, true] ++ lowBits (4 * addr + 4) 6 ++ [false, false, false, false]] := by
  obtain ⟨h0, h1, h2, h3, h4⟩ := subNib_eq data
  have hclosed := closedFrames_writeRegister d f addr data []
  rw [List.append_nil, writeRegisterEvents_eq] at hclosed
  rw [hclosed]
  simp only [List.range, List.range.loop, List.map_cons, List.map_nil, h0, h1, h2, h3, h4]
  repeat rw [frameWrBits_subWrite haddr (by omega)]
  rfl

/-- Settles O17: the five frames are those of the event sequence, and the cells and registers are read from the memory it
leaves; an address above 11 fails the operand check. -/
theorem writeRegisterEmitsFiveFrames : Obligations.WriteRegisterEmitsFiveFrames := by
  intro addr data s
  refine ⟨encodeThenDecode (.writeRegister addr data) rfl, fun haddr => ?_, fun haddr =>
    exec_writeRegister_rejected haddr data s⟩
  have hlen := writeRegisterEvents_length addr.toNat data
  rw [writeRegisterEvents_eq] at hlen
  obtain ⟨u, hrun, hends, hnib⟩ := busy_writeRegister haddr data s
  refine ⟨exec_writeRegister_accepted haddr data s, hlen, closedFrames_registerWrite haddr data _ _, u, hrun, hends, ?_⟩
  rw [hnib]
  refine ⟨?_, ?_, ?_, ?_, ?_, fun a ha => read_writeRegisterNib_outside ha data _, reg_writeRegisterNib _ _ _,
    fun _ => reg_writeRegisterNib_next _ _ _⟩ <;> simp [read_writeRegisterNib]

/-- Settles O19: the second write of a pair leaves the register below it alone, and of the register above it the low
twelve bits. -/
theorem spillDependsOnOrder : Obligations.SpillDependsOnOrder := by
  intro lower upper d e s hlower hupper
  have hupper11 : upper.toNat ≤ 11 := by omega
  have hlower11 : lower.toNat ≤ 11 := by omega
  constructor
  · obtain ⟨u, hu, -, hunib⟩ := busy_writeRegister hlower11 d s
    obtain ⟨v, hv, -, hvnib⟩ := busy_writeRegister hupper11 e u
    refine ⟨u, v, hu, hv, ?_, ?_⟩
    · rw [hvnib, reg_writeRegisterNib_below (by omega), hunib, reg_writeRegisterNib]
    · rw [hvnib, reg_writeRegisterNib]
  · obtain ⟨u, hu, -, hunib⟩ := busy_writeRegister hupper11 e s
    obtain ⟨v, hv, -, hvnib⟩ := busy_writeRegister hlower11 d u
    refine ⟨u, v, hu, hv, ?_, ?_⟩
    · rw [hvnib, reg_writeRegisterNib]
    · rw [hvnib, hupper, reg_writeRegisterNib_next, hunib, ← hupper, reg_writeRegisterNib]

/-! ### The frame discipline -/

/-- The frames a host operation may put on the wire: a command frame, or a write frame with an address up to 48 (R103,
R110). -/
def IsHostFrame (bits : List Bool) : Prop :=
  (∃ c : Byte, bits = [true, false, false, false] ++ lowBits c.toNat 8) ∨
  (∃ (a : Addr6) (d : Nibble), a.toNat ≤ 48 ∧ bits = [true, false, true] ++ lowBits a.toNat 6 ++ lowBits d.toNat 4)

/-- A list of events that, begun between brackets, pulses WR only in brackets of its own, each of which holds a frame of
a host operation, and ends between brackets (R166). -/
structure Disciplined (es : List Event) : Prop where
  wr : ∀ rest, wrOnlyInBracket true (es ++ rest) = wrOnlyInBracket true rest
  frames : ∀ rest, ∀ bits ∈ closedFrames false none (es ++ rest),
    IsHostFrame bits ∨ bits ∈ closedFrames false none rest

theorem disciplined_nil : Disciplined [] where
  wr _ := rfl
  frames _ _ h := .inr h

theorem Disciplined.append {es fs : List Event} (he : Disciplined es) (hf : Disciplined fs) : Disciplined (es ++ fs) where
  wr rest := by rw [List.append_assoc, he.wr, hf.wr]
  frames rest bits h := by
    rw [List.append_assoc] at h
    exact (he.frames _ bits h).elim .inl (hf.frames rest bits)

theorem disciplined_counterReset : Disciplined [.counterReset] where
  wr _ := rfl
  frames _ _ h := .inr h

theorem disciplined_frameCmd (c : Byte) : Disciplined (frameCmdEvents c.toNat) where
  wr := wrOnlyInBracket_frameCmd true c.toNat
  frames rest bits h := by
    rw [closedFrames_frameCmd, List.mem_cons] at h
    exact h.imp_left fun hb => .inl ⟨c, hb.trans (frameCmdBits_eq_lowBits c)⟩

theorem disciplined_frameWr {a : Nat} (ha : a ≤ 48) (nib : Nat) : Disciplined (frameWrEvents a nib) where
  wr := wrOnlyInBracket_frameWr true a nib
  frames rest bits h := by
    rw [closedFrames_frameWr, List.mem_cons] at h
    refine h.imp_left fun hb => .inr ⟨_, _, ?_, hb.trans (frameWrBits_eq_lowBits _ _)⟩
    rw [BitVec.toNat_ofNat]
    omega

theorem disciplined_flatMap {α : Type} {l : List α} {f : α → List Event} (h : ∀ x ∈ l, Disciplined (f x)) :
    Disciplined (l.flatMap f) := by
  induction l with
  | nil => exact disciplined_nil
  | cons x xs ih =>
    rw [List.flatMap_cons]
    exact (h x List.mem_cons_self).append (ih fun y hy => h y (List.mem_cons_of_mem x hy))

/-- The five addresses of a register up to 11 are at most `4 · 11 + 4 = 48` (R106, R110). -/
theorem disciplined_writeRegister {addr : Nat} (h : addr ≤ 11) (data : Half) :
    Disciplined (writeRegisterEvents addr data) := by
  refine disciplined_flatMap fun i hi => disciplined_frameWr ?_ _
  have hi5 : i < 5 := List.mem_range.mp hi
  unfold subAddr
  omega

theorem disciplined_writeRun {start : Nat} {ps : List Half} (h : start + ps.length ≤ 12) :
    Disciplined (writeRunEvents start ps) := by
  induction ps generalizing start with
  | nil => exact disciplined_nil
  | cons p ps ih =>
    rw [List.length_cons] at h
    exact (disciplined_writeRegister (by omega) p).append (ih (by omega))

theorem disciplined_clear : Disciplined clearEvents :=
  disciplined_writeRun (by rw [List.length_replicate, Nat.zero_add])

/-- A text of at most ten characters is right-aligned in the ten digit registers (R201). -/
theorem disciplined_printText (cfg : Config) {text : List Byte} (h : text.length ≤ 10) :
    Disciplined (printTextEvents cfg text) := by
  unfold printTextEvents
  split
  · next ps hps =>
    have hlen := charPatterns_length hps
    exact disciplined_writeRun (by unfold maxText; omega)
  · exact disciplined_nil

/-- The decimal-point registers are 10 and 11 (R137). -/
theorem dpEntry_reg_le {cfg : Config} {pos : Int} {reg : Nibble} {mask : Half} (h : dpEntry cfg pos = some (reg, mask)) :
    reg.toNat ≤ 11 := by
  unfold dpEntry at h
  split at h
  · cases h; decide
  · split at h
    · cases h; decide
    · cases h

/-- The event sequence of a host operation that passes its operand check keeps the frame discipline. -/
theorem disciplined_opEvents (cfg : Config) (speed : Speed) {op : Instr} (hhost : op.format = .host)
    (hcheck : operandCheck cfg op = .ok) : Disciplined (opEvents cfg speed op) := by
  cases op with
  | init => exact ((disciplined_frameCmd _).append (disciplined_frameCmd _)).append (disciplined_frameCmd _)
  | powerOff => exact disciplined_frameCmd _
  | powerOn => exact disciplined_frameCmd _
  | sendCommand cmd => exact disciplined_frameCmd cmd
  | writeRegister addr data => exact disciplined_writeRegister ((checkWriteRegister_eq_ok_iff addr).mp hcheck) data
  | clear => exact disciplined_clear
  | fill => exact disciplined_writeRun (by rw [List.length_replicate, Nat.zero_add])
  | clearDp => exact disciplined_writeRun (by decide)
  | printText text => exact disciplined_printText cfg (length_le_of_checkPrintText hcheck)
  | buttonPress => exact disciplined_printText cfg (by cases speed <;> decide)
  | setDp pos =>
    simp only [opEvents, setDpEvents]
    split
    · next hentry => exact disciplined_writeRegister (dpEntry_reg_le hentry) _
    · exact disciplined_nil
  | printChar index c =>
    have hindex := index_le_of_checkPrintChar hcheck
    simp only [opEvents, printCharEvents]
    split
    · exact disciplined_writeRegister (by omega) _
    · exact disciplined_nil
  | printInteger n =>
    have hdigits := length_le_of_checkPrintInteger hcheck
    simp only [opEvents, printIntegerEvents]
    split
    · next ps hps =>
      have hlen := charPatterns_length hps
      rw [List.length_reverse] at hlen
      exact disciplined_clear.append (disciplined_writeRun (by omega))
    · exact disciplined_nil
  | encoderMove p => exact disciplined_counterReset
  | lookupGlyph c => exact disciplined_nil
  | lookupDp pos => exact disciplined_nil
  | reserved opcode => exact disciplined_nil
  | sendBits v n => cases hhost
  | frameCmd c => cases hhost
  | frameWr a d => cases hhost

/-- Settles O21: an accepted host operation has passed its operand check, which bounds the registers it writes. -/
theorem frameDiscipline : Obligations.FrameDiscipline := by
  intro i s t k hhost hexec hbusy
  have hcheck := operandCheck_of_accepted hexec hbusy
  rw [← exec_cfg hexec] at hcheck
  have h := disciplined_opEvents t.cfg t.speed hhost hcheck
  have hwr := h.wr []
  have hframes := h.frames []
  rw [List.append_nil] at hwr hframes
  exact ⟨hwr, fun bits hbits => (hframes bits hbits).resolve_right List.not_mem_nil⟩

end Sys2Proof.Machine
end

section
/-! SUPPORT. The decimal text of PRINT_INTEGER (spec/42_display.md R198): the value a string of digit characters stands
for, and that `str10` is the shortest such string of its value. -/

namespace Sys2Proof.Machine

/-! ### The digits of a number -/

/-- The number has at most `k` digits when it is below `10^k`; 0 has one (R198). -/
theorem digits_length_le_iff {k : Nat} (hk : 0 < k) (n : Nat) : (digits n).length ≤ k ↔ n < 10 ^ k := by
  rw [digits_eq]
  split_ifs with h0
  · subst h0
    exact iff_of_true hk (Nat.pow_pos (by norm_num))
  · exact Nat.digits_length_le_iff (by norm_num) n

/-- The digit in place `k`, the least significant in place 0. -/
theorem getElem_digits {n k : Nat} (hk : k < (digits n).length) : (digits n)[k] = n / 10 ^ k % 10 := by
  rw [← List.getD_eq_getElem _ 0 hk, digits_eq]
  split_ifs with h0
  · subst h0
    cases k <;> simp
  · exact Nat.getD_digits n k (by norm_num)

/-- A positive number has floor(log10 n) + 1 digits (R198). -/
theorem digits_length_eq_log {n : Nat} (hn : 1 ≤ n) : (digits n).length = Nat.log 10 n + 1 := by
  rw [digits_eq, if_neg (by omega), Nat.length_digits 10 n (by norm_num) (by omega)]

/-- The most significant digit of a positive number is not 0 (R198). -/
theorem getLast?_digits_ne_zero {n : Nat} (hn : 1 ≤ n) : (digits n).getLast? ≠ some 0 := by
  have h0 : n ≠ 0 := by omega
  rw [digits_eq, if_neg h0, List.getLast?_eq_some_getLast (Nat.digits_ne_nil_iff_ne_zero.mpr h0)]
  exact fun h => Nat.getLast_digit_ne_zero 10 h0 (Option.some.inj h)

theorem ofDigits_digits (n : Nat) : Nat.ofDigits 10 (digits n) = n := by
  rw [digits_eq]
  split_ifs with h0
  · rw [h0, Nat.ofDigits_singleton]
  · exact Nat.ofDigits_digits 10 n

/-! ### The value of a decimal text -/

/-- The digit a character stands for (00_scope.md R11). -/
def digitValue (c : Byte) : Nat :=
  c.toNat - 0x30

/-- "decimal value" of a text of digit characters, read from the most significant (R198). -/
def decimalValue (text : List Byte) : Nat :=
  text.foldl (fun acc c => 10 * acc + (c.toNat - 0x30)) 0

theorem toNat_digitChar {d : Nat} (h : d < 10) : (digitChar d).toNat = 0x30 + d := by
  rw [digitChar, BitVec.toNat_ofNat, Nat.mod_eq_of_lt (by omega)]

theorem digitValue_digitChar {d : Nat} (h : d < 10) : digitValue (digitChar d) = d := by
  rw [digitValue, toNat_digitChar h, Nat.add_sub_cancel_left]

/-- The decimal value of a text is the library's number of its digits, least significant first. -/
theorem decimalValue_eq_ofDigits (text : List Byte) :
    decimalValue text = Nat.ofDigits 10 (text.map digitValue).reverse := by
  rw [decimalValue, Nat.ofDigits_eq_foldr, List.foldr_reverse, List.foldl_map]
  simp only [digitValue, Nat.cast_id, Nat.add_comm]

/-- A text of digit characters stands for a number below `10^len`. -/
theorem decimalValue_lt {text : List Byte} (h : ∀ c ∈ text, 0x30 ≤ c.toNat ∧ c.toNat ≤ 0x39) :
    decimalValue text < 10 ^ text.length := by
  have hlt := Nat.ofDigits_lt_base_pow_length (b := 10) (l := (text.map digitValue).reverse) (by norm_num) fun d hd => by
    obtain ⟨c, hc, rfl⟩ := List.mem_map.mp (List.mem_reverse.mp hd)
    have := h c hc
    unfold digitValue
    omega
  rwa [← decimalValue_eq_ofDigits, List.length_reverse, List.length_map] at hlt

/-- The characters of `str10` are the digits, read back from the least significant. -/
theorem map_digitValue_str10 (n : Nat) : ((str10 n).map digitValue).reverse = digits n := by
  rw [str10, List.map_map, ← List.map_reverse, List.reverse_reverse]
  exact (List.map_congr_left fun d hd => digitValue_digitChar (digits_lt hd)).trans (List.map_id _)

theorem digitChar_of_mem_str10 {n : Nat} {c : Byte} (h : c ∈ str10 n) : 0x30 ≤ c.toNat ∧ c.toNat ≤ 0x39 := by
  obtain ⟨d, hd, rfl⟩ := List.mem_map.mp h
  have hlt := digits_lt (List.mem_reverse.mp hd)
  rw [toNat_digitChar hlt]
  omega

theorem decimalValue_str10 (n : Nat) : decimalValue (str10 n) = n := by
  rw [decimalValue_eq_ofDigits, map_digitValue_str10, ofDigits_digits]

theorem head?_str10_ne {n : Nat} (hn : 1 ≤ n) : (str10 n).head? ≠ some 0x30 := by
  intro h
  rw [str10, List.head?_map, List.head?_reverse, Option.map_eq_some_iff] at h
  obtain ⟨d, hd, hchar⟩ := h
  have hzero := digitValue_digitChar (digits_lt (List.mem_of_getLast? hd))
  rw [hchar] at hzero
  subst hzero
  exact getLast?_digits_ne_zero hn hd

theorem str10_length_le_iff {k : Nat} (hk : 0 < k) (n : Nat) : (str10 n).length ≤ k ↔ n < 10 ^ k := by
  rw [str10_length, digits_length_le_iff hk]

theorem str10_length_pos (n : Nat) : 0 < (str10 n).length := by
  rw [str10_length]
  exact List.length_pos_iff.mpr (digits_ne_nil n)

/-- Settles O27: the digits of `str10` are the library's; a text of value `n` and length `k` has `n < 10^k`, and then
`str10 n` has at most `k` characters. -/
theorem decimalTextIsShortest : Obligations.DecimalTextIsShortest := by
  intro n
  refine ⟨fun c => digitChar_of_mem_str10, decimalValue_str10 n, rfl, fun hn => ⟨head?_str10_ne hn, ?_⟩, fun hn => ?_,
    fun text hne hdigits hvalue => ?_⟩
  · rw [str10_length, digits_length_eq_log hn]
  · have hle := (str10_length_le_iff one_pos n).mpr (by omega)
    have hpos := str10_length_pos n
    omega
  · have hlt := decimalValue_lt hdigits
    rw [decimalValue, hvalue] at hlt
    exact (str10_length_le_iff (List.length_pos_iff.mpr hne) n).mpr hlt

end Sys2Proof.Machine
end

section
/-! SUPPORT. The display operations (spec/42_display.md R190 to R201): what a run of command frames or of register writes
leaves in the receiver, and from it each operation, accepted or rejected. -/

namespace Sys2Proof.Machine

/-! ### The receiver modes -/

/-- Command frames, one after the other: no cell written, the lines idle (R162, R72). -/
theorem emitAll_sendCommands {cmds : List Byte} (hne : cmds ≠ []) (s : State) :
    s.emitAll (cmds.flatMap sendCommandEvents) =
      { s with
        lines := Lines.idle
        receiver := { frame := none, nib := s.receiver.nib }
        trace := s.trace ++ cmds.flatMap sendCommandEvents } := by
  induction cmds generalizing s with
  | nil => exact absurd rfl hne
  | cons c cs ih =>
    rw [List.flatMap_cons, emitAll_append, sendCommandEvents, emitAll_frameCmd]
    cases cs with
    | nil => simp
    | cons d ds => rw [ih (List.cons_ne_nil d ds), List.append_assoc]

theorem sendCommands_length (cmds : List Byte) : (cmds.flatMap sendCommandEvents).length = 40 * cmds.length := by
  induction cmds with
  | nil => rfl
  | cons c cs ih =>
    rw [List.flatMap_cons, List.length_append, ih, sendCommandEvents, frameCmdEvents_length, List.length_cons]
    omega

/-- An operation that sends command frames ends after 40 steps for each and leaves `NIB` (R190, R191, R192). -/
theorem busy_sendCommands {op : Instr} {s : State} {cmds : List Byte}
    (hes : opEvents s.cfg s.speed op = cmds.flatMap sendCommandEvents) (hne : cmds ≠ [])
    (hfin : ∀ t : State, t.finish op = t.complete none) :
    ∃ u, runSteps (40 * cmds.length) { s with seq := .busy op 0 } = .next u ∧
      EndsAfter (cmds.flatMap commandFrame) s u ∧ u.receiver.nib = s.receiver.nib := by
  have hlen := sendCommands_length cmds
  have hpos := List.length_pos_iff.mpr hne
  rw [← hlen, ← funext sendCommandEvents_eq]
  exact busy_endsAfter hes (List.length_pos_iff.mp (by omega)) (emitAll_sendCommands hne s) hfin

/-- Settles O22: the three command frames of INIT, and the one of POWER_OFF and of POWER_ON. -/
theorem receiverModeOperations : Obligations.ReceiverModeOperations := by
  intro s
  have hinit := busy_sendCommands (op := .init) (s := s) (cmds := [s.cfg.cmdSysEn, s.cfg.cmdClk32k, s.cfg.cmdDispOn])
    (by simp [opEvents, initEvents]) (List.cons_ne_nil _ _) fun _ => rfl
  have hoff := busy_sendCommands (op := .powerOff) (s := s) (cmds := [s.cfg.cmdDispOff])
    (List.append_nil _).symm (List.cons_ne_nil _ _) fun _ => rfl
  have hon := busy_sendCommands (op := .powerOn) (s := s) (cmds := [s.cfg.cmdDispOn])
    (List.append_nil _).symm (List.cons_ne_nil _ _) fun _ => rfl
  simp only [List.flatMap_cons, List.flatMap_nil, List.append_nil, ← List.append_assoc] at hinit hoff hon
  exact ⟨encodeThenDecode .init rfl, encodeThenDecode .powerOff rfl, encodeThenDecode .powerOn rfl,
    rfl, hinit, rfl, hoff, rfl, hon⟩

/-! ### Runs of register writes -/

/-- The memory `m'` is `m` after the registers from `start` on were written with `ps`: each register holds its pattern,
the fifth sub-write of the last has zeroed the next cell, and no other cell has changed (R164, R165). -/
structure RunWritten (start : Nat) (ps : List Half) (m m' : Nib) : Prop where
  reg : ∀ (j : Nat) (hj : j < ps.length), m'.reg (start + j) = ps[j]
  spill : Nib.read (4 * (start + ps.length)) m' = some 0
  outside : ∀ a, a < 4 * start ∨ 4 * (start + ps.length) < a → Nib.read a m' = Nib.read a m

theorem runWritten_writeRunNib (start : Nat) {ps : List Half} (hne : ps ≠ []) (m : Nib) :
    RunWritten start ps m (writeRunNib start ps m) where
  reg _ hj := reg_writeRun hj m
  spill := read_writeRun_spill hne m
  outside _ ha := read_writeRun_outside ha m

/-- An operation that writes a run of registers ends after 220 steps for each (R163, R164). -/
theorem busy_registerRun {op : Instr} {s : State} {start : Nat} {ps : List Half}
    (hes : opEvents s.cfg s.speed op = writeRunEvents start ps) (h12 : start + ps.length ≤ 12) (hne : ps ≠ [])
    (hfin : ∀ t : State, t.finish op = t.complete none) :
    ∃ u, runSteps (220 * ps.length) { s with seq := .busy op 0 } = .next u ∧
      EndsAfter ((List.range ps.length).flatMap fun j => registerWrite (start + j) (ps.getD j 0)) s u ∧
      RunWritten start ps s.receiver.nib u.receiver.nib := by
  obtain ⟨u, hrun, hends, hnib⟩ := busy_writeRun hes h12 hne hfin
  rw [writeRunEvents_eq] at hends
  exact ⟨u, hrun, hends, hnib ▸ runWritten_writeRunNib start hne _⟩

/-- The events of writing one pattern to `n` registers. -/
theorem registerWrites_replicate (start n : Nat) (p : Half) :
    ((List.range n).flatMap fun j => registerWrite (start + j) ((List.replicate n p).getD j 0)) =
      (List.range n).flatMap fun j => registerWrite (start + j) p := by
  refine List.flatMap_congr fun j hj => ?_
  rw [List.getD_eq_getElem _ 0 (by simpa using hj), List.getElem_replicate]

/-- An operation that writes one pattern to all twelve registers (R193, R194). -/
theorem busy_allRegisters {op : Instr} {s : State} {p : Half}
    (hes : opEvents s.cfg s.speed op = writeRunEvents 0 (List.replicate 12 p))
    (hfin : ∀ t : State, t.finish op = t.complete none) :
    ∃ u, runSteps 2640 { s with seq := .busy op 0 } = .next u ∧
      EndsAfter ((List.range 12).flatMap fun r => registerWrite r p) s u ∧
      (∀ r, r ≤ 11 → u.receiver.nib.reg r = p) ∧
      Nib.read 48 u.receiver.nib = some 0 ∧
      (∀ a, 48 < a → Nib.read a u.receiver.nib = Nib.read a s.receiver.nib) := by
  have hlen : (List.replicate 12 p).length = 12 := List.length_replicate
  obtain ⟨u, hrun, hends, hreg, hspill, hout⟩ :=
    busy_registerRun hes (by rw [hlen]) (List.cons_ne_nil _ _) hfin
  rw [hlen] at hrun hends hspill hout
  rw [registerWrites_replicate] at hends
  simp only [zero_add] at hends hreg
  refine ⟨u, hrun, hends, fun r hr => ?_, hspill, fun a ha => hout a (.inr ha)⟩
  rw [hreg r (by omega), List.getElem_replicate]

/-- An operation that writes one register (R195, R200). -/
theorem busy_oneRegister {op : Instr} {s : State} {reg : Nat} {p : Half}
    (hes : opEvents s.cfg s.speed op = writeRegisterEvents reg p) (hreg : reg ≤ 11)
    (hfin : ∀ t : State, t.finish op = t.complete none) :
    ∃ u, runSteps 220 { s with seq := .busy op 0 } = .next u ∧
      EndsAfter (registerWrite reg p) s u ∧
      u.receiver.nib.reg reg = p ∧
      Nib.read (4 * reg + 4) u.receiver.nib = some 0 ∧
      (∀ a, a < 4 * reg ∨ 4 * reg + 4 < a → Nib.read a u.receiver.nib = Nib.read a s.receiver.nib) := by
  obtain ⟨u, hrun, hends, hnib⟩ := busy_endsAfter hes (writeRegisterEvents_ne reg p) (emitAll_writeRegister hreg p s) hfin
  rw [writeRegisterEvents_length] at hrun
  rw [writeRegisterEvents_eq] at hends
  refine ⟨u, hrun, hends, ?_⟩
  rw [hnib]
  exact ⟨reg_writeRegisterNib reg p _, by rw [read_writeRegisterNib, if_pos rfl],
    fun a ha => read_writeRegisterNib_outside ha p _⟩

/-! ### CLEAR, FILL, CLEAR_DP and SET_DP -/

/-- Settles O23: CLEAR is the run of twelve registers with 0x0000. -/
theorem clearZeroesEveryRegister : Obligations.ClearZeroesEveryRegister :=
  fun _ => ⟨encodeThenDecode .clear rfl, rfl, busy_allRegisters rfl fun _ => rfl⟩

/-- Settles O24: FILL is the run of twelve registers with 0xFFFF. -/
theorem fillSetsEveryRegister : Obligations.FillSetsEveryRegister :=
  fun _ => ⟨encodeThenDecode .fill rfl, rfl, busy_allRegisters rfl fun _ => rfl⟩

/-- Settles O26: the run of two registers from register 10, whose last fifth sub-write is cell 48. -/
theorem clearDpZeroesBothRegisters : Obligations.ClearDpZeroesBothRegisters := by
  intro s
  obtain ⟨u, hrun, hends, hreg, hspill, hout⟩ := busy_registerRun (op := .clearDp) (s := s) (start := 10)
    (ps := [0x0000, 0x0000]) rfl (by decide) (List.cons_ne_nil _ _) fun _ => rfl
  exact ⟨encodeThenDecode .clearDp rfl, rfl, u, hrun, hends, hreg 0 (by decide), hreg 1 (by decide), hspill, hout⟩

theorem exec_setDp_of_some {pos : Int} {s : State} {e : Nibble × Half} (h : dpEntry s.cfg pos = some e) :
    exec (.setDp pos) s = .next (s.accept (.setDp pos)) := by
  simp only [exec, execSetDp, h]

theorem exec_setDp_of_none {pos : Int} {s : State} (h : dpEntry s.cfg pos = none) :
    exec (.setDp pos) s = .next (s.complete none) := by
  simp only [exec, execSetDp, h]

theorem setDpEvents_of_some {cfg : Config} {pos : Int} {reg : Nibble} {mask : Half}
    (h : dpEntry cfg pos = some (reg, mask)) : setDpEvents cfg pos = writeRegisterEvents reg.toNat mask := by
  simp only [setDpEvents, h]

/-- Settles O25: the entry of the position's table row is written; a position without a row completes at once. -/
theorem setDpOverwritesRegister : Obligations.SetDpOverwritesRegister := by
  intro pos s
  refine ⟨encodeThenDecode (.setDp pos) rfl, fun p hpos => ?_, fun hout =>
    exec_setDp_of_none (dpEntry_eq_none s.cfg hout)⟩
  have hentry := dpEntry_position s.cfg p
  rw [← hpos] at hentry
  have hreg : (if p.val < 3 then 11 else 10 : Nibble).toNat = if pos ≤ 3 then 11 else 10 := by
    by_cases hp : p.val < 3
    · rw [if_pos hp, if_pos (by omega)]; rfl
    · rw [if_neg hp, if_neg (by omega)]; rfl
  obtain ⟨u, hu⟩ := busy_oneRegister (op := .setDp pos) (s := s) (setDpEvents_of_some hentry) (dpEntry_reg_le hentry)
    fun _ => rfl
  exact ⟨exec_setDp_of_some hentry, _, u, hreg, hu⟩

/-! ### PRINT_CHAR -/

/-- An operation rejected by its operand check with a known error (R115, R284). -/
theorem exec_of_operandCheck {i : Instr} {s : State} {e : Status} (h : operandCheck s.cfg i = e) (he : e ≠ .ok) :
    exec i s = .next (s.raise e) := by
  subst h
  exact exec_of_operandCheck_ne_ok he

theorem checkPrintChar_eq_displayOverflow (cfg : Config) {index : Int} (h : index < 0 ∨ 9 < index) (c : Byte) :
    checkPrintChar cfg index c = .displayOverflow :=
  if_pos h

theorem checkPrintChar_of_some {cfg : Config} {index : Int} {c : Byte} {p : Half} (hlow : 0 ≤ index) (hhigh : index ≤ 9)
    (h : charPattern cfg c = some p) : checkPrintChar cfg index c = .ok := by
  rw [checkPrintChar, if_neg (by omega), h]

theorem checkPrintChar_of_none {cfg : Config} {index : Int} {c : Byte} (hlow : 0 ≤ index) (hhigh : index ≤ 9)
    (h : charPattern cfg c = none) : checkPrintChar cfg index c = .unsupportedCharacter := by
  rw [checkPrintChar, if_neg (by omega), h]

theorem exec_printChar_accepted {index : Int} {c : Byte} {s : State} (h : checkPrintChar s.cfg index c = .ok) :
    exec (.printChar index c) s = .next (s.accept (.printChar index c)) := by
  simp only [exec, execPrintChar, h]

theorem printCharEvents_of_some {cfg : Config} {c : Byte} {p : Half} (index : Int) (h : charPattern cfg c = some p) :
    printCharEvents cfg index c = writeRegisterEvents index.toNat p := by
  simp only [printCharEvents, h]

/-- Settles O29: an accepted PRINT_CHAR writes its one register; the check finds the index first, then the character. -/
theorem printCharWritesOneRegister : Obligations.PrintCharWritesOneRegister := by
  intro index c s
  refine ⟨encodeThenDecode (.printChar index c) rfl, fun p hlow hhigh hp => ?_, fun hout => ?_, fun hlow hhigh hnone => ?_⟩
  · exact ⟨exec_printChar_accepted (checkPrintChar_of_some hlow hhigh hp),
      busy_oneRegister (printCharEvents_of_some index hp) (by omega) fun _ => rfl⟩
  · exact exec_of_operandCheck (checkPrintChar_eq_displayOverflow s.cfg hout c) (by decide)
  · exact exec_of_operandCheck (checkPrintChar_of_none hlow hhigh hnone) (by decide)

/-! ### PRINT_TEXT -/

/-- One character outside the alphabet leaves the whole string without patterns (R201). -/
theorem charPatterns_eq_none {cfg : Config} {text : List Byte} {c : Byte} (hc : c ∈ text)
    (h : charPattern cfg c = none) : charPatterns cfg text = none := by
  by_contra hsome
  obtain ⟨ps, hps⟩ := Option.ne_none_iff_exists'.mp hsome
  have hmem : none ∈ text.map (charPattern cfg) := List.mem_map.mpr ⟨c, hc, h⟩
  rw [charPatterns_eq_some.mp hps] at hmem
  obtain ⟨p, -, hp⟩ := List.mem_map.mp hmem
  cases hp

theorem checkPrintText_eq_displayOverflow (cfg : Config) {text : List Byte} (h : text.length > 10) :
    checkPrintText cfg text = .displayOverflow :=
  if_pos h

theorem checkPrintText_of_some {cfg : Config} {text : List Byte} {ps : List Half} (hlen : text.length ≤ 10)
    (h : charPatterns cfg text = some ps) : checkPrintText cfg text = .ok := by
  rw [checkPrintText, if_neg (Nat.not_lt.mpr hlen), h]

theorem checkPrintText_of_none {cfg : Config} {text : List Byte} (hlen : text.length ≤ 10)
    (h : charPatterns cfg text = none) : checkPrintText cfg text = .unsupportedCharacter := by
  rw [checkPrintText, if_neg (Nat.not_lt.mpr hlen), h]

theorem exec_printText_accepted {text : List Byte} {s : State} (h : checkPrintText s.cfg text = .ok) (hne : text ≠ []) :
    exec (.printText text) s = .next (s.accept (.printText text)) := by
  simp only [exec, execPrintText, h, if_neg hne]

theorem exec_printText_empty (s : State) : exec (.printText []) s = .next (s.complete none) :=
  rfl

theorem printTextEvents_of_some {cfg : Config} {text : List Byte} {ps : List Half} (h : charPatterns cfg text = some ps) :
    printTextEvents cfg text = writeRunEvents (10 - text.length) ps := by
  simp only [printTextEvents, h]

/-- Settles O30: an accepted text is a run of registers that ends at register 9, so its spill is cell 40; the check finds
the length first, then the characters. -/
theorem printTextRightAligns : Obligations.PrintTextRightAligns := by
  intro text s
  refine ⟨encodeThenDecode (.printText text) rfl, fun ps hpos hlen hmap => ?_, ?_, fun hlong => ?_,
    fun hlen ⟨c, hc, hnone⟩ => ?_⟩
  · have hps := charPatterns_eq_some.mpr hmap
    have hpslen := charPatterns_length hps
    obtain ⟨u, hrun, hends, hreg, hspill, hout⟩ := busy_registerRun (op := .printText text) (s := s)
      (printTextEvents_of_some hps) (by omega) (List.length_pos_iff.mp (by omega)) fun _ => rfl
    have hlast : 10 - text.length + text.length = 10 := by omega
    rw [hpslen] at hrun hends hspill hout
    rw [hlast] at hspill hout
    refine ⟨exec_printText_accepted (checkPrintText_of_some hlen hps) (List.length_pos_iff.mp hpos), u, hrun, hends,
      fun j hj => ?_, hspill, hout⟩
    have hj' : j < ps.length := by omega
    rw [hreg j hj', List.getElem?_eq_getElem hj']
  · rintro rfl
    exact exec_printText_empty s
  · exact exec_of_operandCheck (checkPrintText_eq_displayOverflow s.cfg hlong) (by decide)
  · exact exec_of_operandCheck (checkPrintText_of_none hlen (charPatterns_eq_none hc hnone)) (by decide)

/-! ### PRINT_INTEGER -/

/-- The digits fit the ten digit registers exactly up to 9,999,999,999 (R199). -/
theorem str10_fits_iff (n : Int) (h : 0 ≤ n) : (str10 n.toNat).length ≤ 10 ↔ n ≤ 9999999999 := by
  rw [str10_length_le_iff (by norm_num)]
  omega

theorem checkPrintInteger_negative {n : Int} (h : n < 0) : checkPrintInteger n = .unsupportedCharacter :=
  if_pos h

theorem checkPrintInteger_tooLong {n : Int} (h : n > 9999999999) : checkPrintInteger n = .displayOverflow := by
  have hlong : ¬ (str10 n.toNat).length ≤ 10 := (str10_fits_iff n (by omega)).not.mpr (by omega)
  rw [checkPrintInteger, if_neg (by omega), if_pos (Nat.lt_of_not_le hlong)]

theorem checkPrintInteger_fits {n : Int} (hlow : 0 ≤ n) (hhigh : n ≤ 9999999999) : checkPrintInteger n = .ok := by
  rw [checkPrintInteger, if_neg (by omega), if_neg (Nat.not_lt.mpr ((str10_fits_iff n hlow).mpr hhigh))]

theorem exec_printInteger_accepted {n : Int} {s : State} (h : checkPrintInteger n = .ok) :
    exec (.printInteger n) s = .next (s.accept (.printInteger n)) := by
  simp only [exec, execPrintInteger, h]

/-- The patterns PRINT_INTEGER writes: the glyph of each decimal digit, the least significant first (R132, R199). -/
theorem str10_patterns (cfg : Config) (n : Nat) :
    ∃ ps, charPatterns cfg (str10 n).reverse = some ps ∧ ps.length = (str10 n).length ∧
      ∀ k, k < (str10 n).length → ps[k]? = cfg.glyph[6 + n / 10 ^ k % 10]? := by
  obtain ⟨ps, hps, hget⟩ := charPatterns_digits cfg (ds := digits n) fun d => digits_lt
  rw [← str10_reverse] at hps
  refine ⟨ps, hps, by rw [charPatterns_length hps, List.length_reverse], fun k hk => ?_⟩
  rw [str10_length] at hk
  have hdigit := getElem_digits hk
  rw [hget k hk, ← Vector.getElem?_eq_getElem, hdigit]

theorem printIntegerEvents_of_some {cfg : Config} {n : Int} {ps : List Half}
    (h : charPatterns cfg (str10 n.toNat).reverse = some ps) :
    printIntegerEvents cfg n = clearEvents ++ writeRunEvents 0 ps := by
  simp only [printIntegerEvents, h]

/-- The display memory after CLEAR and then a run of registers from register 0 (R199). -/
def clearedRunNib (ps : List Half) (m : Nib) : Nib :=
  writeRunNib 0 ps (writeRunNib 0 (List.replicate 12 0x0000) m)

/-- CLEAR on the receiver (R193). -/
theorem emitAll_clear (s : State) :
    s.emitAll clearEvents =
      { s with
        lines := Lines.idle
        receiver := { frame := none, nib := writeRunNib 0 (List.replicate 12 0x0000) s.receiver.nib }
        trace := s.trace ++ clearEvents } :=
  emitAll_writeRun (ps := List.replicate 12 0x0000) (by rw [List.length_replicate]) (List.cons_ne_nil _ _) s

/-- CLEAR and then a run of registers from register 0 on the receiver. -/
theorem emitAll_clear_writeRun {ps : List Half} (hlen : ps.length ≤ 12) (hne : ps ≠ []) (s : State) :
    s.emitAll (clearEvents ++ writeRunEvents 0 ps) =
      { s with
        lines := Lines.idle
        receiver := { frame := none, nib := clearedRunNib ps s.receiver.nib }
        trace := s.trace ++ (clearEvents ++ writeRunEvents 0 ps) } := by
  rw [emitAll_append, emitAll_clear, emitAll_writeRun (by omega) hne, List.append_assoc, clearedRunNib]

/-- CLEAR as R193 writes it. -/
theorem clearEvents_eq : clearEvents = (List.range 12).flatMap fun r => registerWrite r 0x0000 := by
  rw [clearEvents, writeRunEvents_eq, List.length_replicate, registerWrites_replicate]
  simp only [zero_add]

/-- Every nibble of 0x0000 is 0, and so is the fifth sub-write. -/
theorem read_writeRegisterNib_zero {addr c : Nat} (hlow : 4 * addr ≤ c) (hhigh : c ≤ 4 * addr + 4) (m : Nib) :
    Nib.read c (writeRegisterNib addr 0x0000 m) = some 0 := by
  have hcell : c = 4 * addr ∨ c = 4 * addr + 1 ∨ c = 4 * addr + 2 ∨ c = 4 * addr + 3 ∨ c = 4 * addr + 4 := by omega
  obtain rfl | rfl | rfl | rfl | rfl := hcell <;> simp [read_writeRegisterNib]

/-- Writing 0x0000 to a run of registers zeroes each of their cells. -/
theorem read_writeRun_zeros {start n c : Nat} (hlow : 4 * start ≤ c) (hhigh : c < 4 * (start + n)) (m : Nib) :
    Nib.read c (writeRunNib start (List.replicate n 0x0000) m) = some 0 := by
  induction n generalizing start m with
  | zero => omega
  | succ n ih =>
    rw [List.replicate_succ, writeRunNib]
    by_cases hfirst : c < 4 * (start + 1)
    · rw [read_writeRun_outside (.inl hfirst), read_writeRegisterNib_zero hlow (by omega)]
    · exact ih (by omega) (by omega) _

theorem reg_of_zero_cells {m : Nib} {r : Nat} (h : ∀ c, 4 * r ≤ c → c ≤ 4 * r + 3 → Nib.read c m = some 0) :
    m.reg r = 0x0000 := by
  simp only [Nib.reg, Nib.cell, h (4 * r) (by omega) (by omega), h (4 * r + 1) (by omega) (by omega),
    h (4 * r + 2) (by omega) (by omega), h (4 * r + 3) (by omega) (by omega), Option.getD_some]
  rfl

/-- After CLEAR and a run of registers, every cell from the run's spill to cell 48 is 0 (R199). -/
theorem read_clearedRunNib_above {ps : List Half} (hne : ps ≠ []) {c : Nat} (hlow : 4 * ps.length ≤ c) (hhigh : c ≤ 48)
    (m : Nib) : Nib.read c (clearedRunNib ps m) = some 0 := by
  have hcleared := runWritten_writeRunNib 0 (ps := List.replicate 12 0x0000) (List.cons_ne_nil _ _) m
  have hrun := runWritten_writeRunNib 0 hne (writeRunNib 0 (List.replicate 12 0x0000) m)
  rw [clearedRunNib]
  obtain rfl | habove := hlow.eq_or_lt
  · simpa only [zero_add] using hrun.spill
  · rw [hrun.outside c (.inr (by omega))]
    obtain rfl | hbelow := hhigh.eq_or_lt
    · exact hcleared.spill
    · exact read_writeRun_zeros (by omega) (by omega) m

/-- Cells above 48 keep their contents through CLEAR and a run of registers (R193, R199). -/
theorem read_clearedRunNib_outside {ps : List Half} (hlen : ps.length ≤ 12) {c : Nat} (h : 48 < c) (m : Nib) :
    Nib.read c (clearedRunNib ps m) = Nib.read c m := by
  rw [clearedRunNib, read_writeRun_outside (by omega), read_writeRun_outside (by rw [List.length_replicate]; omega)]

/-- An accepted PRINT_INTEGER ends after the events of CLEAR and of one register write for each digit (R199). -/
theorem busy_printInteger {n : Int} {s : State} {ps : List Half}
    (hps : charPatterns s.cfg (str10 n.toNat).reverse = some ps) (hlen : ps.length ≤ 12) (hne : ps ≠ []) :
    ∃ u, runSteps (2640 + 220 * ps.length) { s with seq := .busy (.printInteger n) 0 } = .next u ∧
      EndsAfter (((List.range 12).flatMap fun r => registerWrite r 0x0000) ++
        (List.range ps.length).flatMap fun k => registerWrite k (ps.getD k 0)) s u ∧
      u.receiver.nib = clearedRunNib ps s.receiver.nib := by
  have hevents : (clearEvents ++ writeRunEvents 0 ps).length = 2640 + 220 * ps.length := by
    rw [List.length_append, clearEvents_length, writeRunEvents_length]
  obtain ⟨u, hrun, hends, hnib⟩ := busy_endsAfter (op := .printInteger n) (printIntegerEvents_of_some hps)
    (List.length_pos_iff.mp (by omega)) (emitAll_clear_writeRun hlen hne s) fun _ => rfl
  rw [hevents] at hrun
  rw [clearEvents_eq, writeRunEvents_eq] at hends
  simp only [zero_add] at hends
  exact ⟨u, hrun, hends, hnib⟩

/-- Settles O28: an accepted integer is CLEAR and a run of registers from register 0, one for each digit; the check is the
sign, then the ten digits. -/
theorem printIntegerWritesDigits : Obligations.PrintIntegerWritesDigits := by
  intro n s
  refine ⟨encodeThenDecode (.printInteger n) rfl, fun hlow hhigh => ?_, fun hneg => ?_, fun hbig => ?_⟩
  · obtain ⟨ps, hps, hlen, hget⟩ := str10_patterns s.cfg n.toNat
    have hfits := (str10_fits_iff n hlow).mpr hhigh
    have hne : ps ≠ [] := List.length_pos_iff.mp (hlen ▸ str10_length_pos n.toNat)
    obtain ⟨u, hrun, hends, hnib⟩ := busy_printInteger (s := s) hps (by omega) hne
    rw [← hlen] at hget hfits
    refine ⟨exec_printInteger_accepted (checkPrintInteger_fits hlow hhigh), _, ps, u, hlen, rfl, hget, hrun, hends, ?_⟩
    rw [hnib]
    refine ⟨fun k hk => ?_, fun k hk hk11 => ?_, ?_, fun a ha => read_clearedRunNib_outside (by omega) ha _⟩
    · have hreg := reg_writeRun (start := 0) hk (writeRunNib 0 (List.replicate 12 0x0000) s.receiver.nib)
      rw [zero_add] at hreg
      rw [← hget k hk, clearedRunNib, hreg, List.getElem?_eq_getElem hk]
    · exact reg_of_zero_cells fun c hc hc3 => read_clearedRunNib_above hne (by omega) (by omega) _
    · exact read_clearedRunNib_above hne (by omega) le_rfl _
  · exact exec_of_operandCheck (checkPrintInteger_negative hneg) (by decide)
  · exact exec_of_operandCheck (checkPrintInteger_tooLong hbig) (by decide)

end Sys2Proof.Machine
end

section
/-! SUPPORT. The rotary quantizer (spec/43_quantizer.md R240 to R244): the acceleration map, the VALUE a completed movement
leaves, and the W-bit range of LAST_POS and VALUE along every step. -/

namespace Sys2Proof.Machine

/-! ### The acceleration map -/

theorem accel_eq_m0 {a : Accel} {r : Nat} (h1 : r ≤ a.t1) : accel a r = a.m0 :=
  if_pos h1

theorem accel_eq_m1 {a : Accel} {r : Nat} (h1 : a.t1 < r) (h2 : r ≤ a.t2) : accel a r = a.m1 := by
  rw [accel, if_neg h1.not_ge, if_pos h2]

theorem accel_eq_m2 {a : Accel} {r : Nat} (h1 : a.t1 < r) (h2 : a.t2 < r) (h3 : r ≤ a.t3) : accel a r = a.m2 := by
  rw [accel, if_neg h1.not_ge, if_neg h2.not_ge, if_pos h3]

theorem accel_eq_m3 {a : Accel} {r : Nat} (h1 : a.t1 < r) (h2 : a.t2 < r) (h3 : a.t3 < r) : accel a r = a.m3 := by
  rw [accel, if_neg h1.not_ge, if_neg h2.not_ge, if_neg h3.not_ge]

/-- Rising multipliers make the map monotone, wherever the thresholds are (R240). -/
theorem accel_monotone {a : Accel} (h01 : a.m0 ≤ a.m1) (h12 : a.m1 ≤ a.m2) (h23 : a.m2 ≤ a.m3) : Monotone (accel a) := by
  intro r q hrq
  unfold accel
  split_ifs <;> omega

/-- Settles O31: band by band, with the reference thresholds 8, 10 and 14; the reference multipliers rise. -/
theorem accelerationMap : Obligations.AccelerationMap := by
  have hmono : Monotone (accel Accel.reference) := accel_monotone (by decide) (by decide) (by decide)
  refine ⟨fun a r => ⟨accel_eq_m0, accel_eq_m1, accel_eq_m2, accel_eq_m3⟩, fun r h => accel_eq_m0 h,
    fun r hlow hhigh => accel_eq_m1 hlow hhigh, fun r hlow hhigh => ?_, fun r hlow => ?_, fun r q hrq => hmono hrq⟩
  · exact accel_eq_m2 (lt_of_lt_of_le (by decide) hlow) hlow hhigh
  · exact accel_eq_m3 (lt_of_lt_of_le (by decide) hlow) (lt_of_lt_of_le (by decide) hlow) hlow

/-! ### The VALUE a completed movement leaves -/

/-- The scaled step rises with the new position (R242). -/
theorem moveStep_mono (r : Nat) (s : State) : Monotone fun p => moveStep p r s := by
  intro p q hpq
  simp only [moveStep]
  gcongr

theorem moveTarget_mono (r : Nat) (s : State) : Monotone fun p => moveTarget p r s :=
  (moveStep_mono r s).const_add s.value

/-- An upward movement has a step that is not negative (R242). -/
theorem moveStep_nonneg {p : Int} {s : State} (h : 0 ≤ p - s.lastPos) (r : Nat) : 0 ≤ moveStep p r s :=
  mul_nonneg (mul_nonneg h (Int.natCast_nonneg _)) (Int.natCast_nonneg _)

/-- An accepted movement completes in one step, with its new position and the clamped VALUE of the drawn count (R242). -/
theorem run_drawn_encoderMove (p : Int) (s : State) :
    ∃ t, runSteps 1 { s.afterPulse with seq := .busy (.encoderMove p) 0, rotspeed := s.drawnPulse } = .next t ∧
      t.lastPos = p ∧ t.value = max 0 (moveTarget p s.drawnPulse s) :=
  ⟨_, run_encoderMove p { s.afterPulse with rotspeed := s.drawnPulse }, rfl, rfl⟩

/-- Settles O33: VALUE is the target clamped at zero; the target rises with the new position, and upwards the clamp does
nothing. -/
theorem encoderMoveProperties : Obligations.EncoderMoveProperties := by
  intro p q s _ _ hvalue hpq
  obtain ⟨t, ht, htpos, htvalue⟩ := run_drawn_encoderMove p s
  obtain ⟨u, hu, hupos, huvalue⟩ := run_drawn_encoderMove q s
  refine ⟨t, u, ht, hu, ?_, ?_, htpos, hupos, fun hup => ?_, fun _ => htvalue⟩
  · exact htvalue ▸ le_max_left _ _
  · rw [htvalue, huvalue]
    exact max_le_max_left 0 (moveTarget_mono s.drawnPulse s hpq)
  · rw [htvalue]
    exact max_eq_right (add_nonneg hvalue (moveStep_nonneg hup s.drawnPulse))

/-! ### The W-bit range of LAST_POS and VALUE -/

/-- The clamp at zero stays in the range (R241, R242). -/
theorem fitsWidth_max_zero {w : Nat} {x : Int} (h : fitsWidth w x = true) : fitsWidth w (max 0 x) = true := by
  simp only [fitsWidth, Bool.and_eq_true, decide_eq_true_eq] at h ⊢
  omega

/-- A movement that has passed its check has every bounded quantity in the range (R241). -/
theorem fitsWidth_of_checked {w : Nat} {p x : Int} {r : Nat} {s : State} (hw : s.cfg.valueWidth = some w)
    (h : checkEncoderMove p r s = .ok) (hx : x ∈ moveQuantities p r s) : fitsWidth w x = true :=
  (fitsWidth_iff w x).mpr ((checkEncoderMove_eq_ok_iff p r s).mp h w hw x hx)

/-- Committing a checked movement keeps the range (R241, R242). -/
theorem commitMove_widthHolds {w : Nat} {p : Int} {s : State} (hw : s.cfg.valueWidth = some w)
    (h : checkEncoderMove p s.rotspeed s = .ok) : (s.commitMove p).widthHolds w := by
  have hposition : fitsWidth w p = true := fitsWidth_of_checked hw h (by simp [moveQuantities])
  have htarget : fitsWidth w (moveTarget p s.rotspeed s) = true := fitsWidth_of_checked hw h (by simp [moveQuantities])
  exact ⟨hw, hposition, fitsWidth_max_zero htarget, nofun⟩

/-- Ending the operation in progress keeps the range: only ENCODER_MOVE writes, and it has passed its check. -/
theorem finish_widthHolds {w : Nat} {op : Instr} {k : Nat} {s : State} (hq : s.seq = .busy op k) (h : s.widthHolds w) :
    (s.finish op).widthHolds w := by
  obtain ⟨hw, hposition, hvalue, hcheck⟩ := h
  obtain ⟨p, rfl, hfinish⟩ | hfinish | hfinish := finish_cases op s <;> rw [hfinish]
  · exact commitMove_widthHolds hw (hcheck p k hq)
  · exact ⟨hw, hposition, hvalue, nofun⟩
  · exact ⟨hw, hposition, hvalue, nofun⟩

/-- An event touches nothing the range speaks of (00_scope.md R12). -/
theorem emit_widthHolds {w : Nat} {s : State} (e : Event) (h : s.widthHolds w) : (s.emit e).widthHolds w := by
  rw [emit_frame]
  exact h

/-- A step from BUSY keeps the range. -/
theorem busyStep_widthHolds {w : Nat} {op : Instr} {k : Nat} {s : State} (hq : s.seq = .busy op k) (h : s.widthHolds w) :
    (s.busyStep op k).widthHolds w := by
  obtain ⟨e, -, -, hb⟩ | ⟨e, -, -, hb⟩ | ⟨-, hb⟩ := busyStep_cases op k s <;> rw [hb]
  · obtain ⟨hw, hposition, hvalue, hcheck⟩ := emit_widthHolds e h
    refine ⟨hw, hposition, hvalue, fun p _ hp => ?_⟩
    obtain ⟨rfl, -⟩ := Seq.busy.inj hp
    exact hcheck p k ((emit_seq e s).trans hq)
  · exact finish_widthHolds ((emit_seq e s).trans hq) (emit_widthHolds e h)
  · exact finish_widthHolds hq h

/-- Only the acceptance of an operation takes the machine into BUSY (R35). -/
theorem exec_of_step_into_busy {s t : State} {op : Instr} {k : Nat} (hb : s.notBusy) (h : step s = .next t)
    (hq : t.seq = .busy op k) : ∃ u, exec op u = .next t := by
  obtain ⟨i, u, -, -, hstep⟩ | ⟨_, _, -, -, hstep⟩ | ⟨-, -, hstep⟩ | ⟨op', k', hq', -⟩ | ⟨-, hstep⟩ |
    ⟨n, -, hstep⟩ := step_cases s
  · have hexec := hstep.symm.trans h
    obtain ⟨rfl, -⟩ := accepted_events_ne hexec hq
    exact ⟨u, hexec⟩
  · cases hstep.symm.trans h
  · cases hstep.symm.trans h
    exact absurd hq (hb op k)
  · exact absurd hq' (hb op' k')
  · cases hstep.symm.trans h
    cases hq
  · cases hstep.symm.trans h
    obtain hpoll | hpoll | hpoll := pollStep_cases n s <;> rw [hpoll] at hq <;> cases hq

/-- An ENCODER_MOVE left in BUSY by its acceptance has passed its check, with the count it keeps (R284; log 7). -/
theorem checked_of_accepted {p : Int} {k : Nat} {s t : State} (h : exec (.encoderMove p) s = .next t)
    (hq : t.seq = .busy (.encoderMove p) k) : checkEncoderMove p t.rotspeed t = .ok := by
  by_cases hcheck : checkEncoderMove p s.drawnPulse s = .ok
  · cases (exec_encoderMove_accepted hcheck).symm.trans h
    exact hcheck
  · cases (exec_encoderMove_rejected hcheck).symm.trans h
    cases hq

/-- Settles O47: a silent step leaves LAST_POS and VALUE alone, and an ENCODER_MOVE it accepts has passed its check; a step
from BUSY commits at most a movement that has. -/
theorem widthKept : Obligations.WidthKept := by
  intro w s t h hstep
  obtain ⟨hb, hs⟩ | ⟨op, k, hq, rfl⟩ := step_silent_or_busy hstep
  · obtain ⟨hw, hposition, hvalue, -⟩ := h
    refine ⟨by rwa [hs.cfg], by rwa [hs.lastPos], by rwa [hs.value], fun p k hq => ?_⟩
    obtain ⟨u, hexec⟩ := exec_of_step_into_busy hb hstep hq
    exact checked_of_accepted hexec hq
  · exact busyStep_widthHolds hq h

end Sys2Proof.Machine
end

section
/-! SUPPORT. The speed-range selector (spec/44_speed_range.md R260 to R266): one poll of the release wait, a run of
polls that see the button pressed, and BUTTON_PRESS through its indicator, its delay and its first poll. -/

namespace Sys2Proof.Machine

/-! ### One poll -/

/-- The level a poll reads is the first the environment has ready (R264; log 5). -/
theorem drawnButton_cons {s : State} {b : Bool} {bs : List Bool} (h : s.buttons = b :: bs) : s.drawnButton = b := by
  rw [State.drawnButton, h, List.headD_cons]

/-- A poll that finds a level ready takes it and makes no free draw (log 5). -/
theorem afterButton_cons {s : State} {b : Bool} {bs : List Bool} (h : s.buttons = b :: bs) :
    s.afterButton = { s with buttons := bs } := by
  simp [State.afterButton, h]

/-- A pressed poll goes on waiting while STUCK_TIMEOUT, if it is set, is not reached (R265). -/
theorem stillPressed_waits {n : Nat} {s : State} (h : ∀ k, s.cfg.stuckTimeout = some k → n + 1 < k) :
    s.stillPressed n = { s with seq := .waitRelease (n + 1) } := by
  unfold State.stillPressed
  split
  · next k hk => exact if_neg (Nat.not_le.mpr (h k hk))
  · rfl

/-- A pressed poll that reaches STUCK_TIMEOUT is the error StuckInput (R265, R283). -/
theorem stillPressed_timeout {n k : Nat} {s : State} (hk : s.cfg.stuckTimeout = some k) (h : k ≤ n + 1) :
    s.stillPressed n = s.raise .stuckInput := by
  simp only [State.stillPressed, hk]
  exact if_pos h

theorem step_poll_released {n : Nat} {s : State} (hq : s.seq = .waitRelease n) (hb : s.drawnButton = true) :
    step s = .next (s.afterButton.complete none) := by
  rw [step_waitRelease hq, State.pollStep, if_pos hb]

theorem step_poll_pressed {n : Nat} {s : State} (hq : s.seq = .waitRelease n) (hb : s.drawnButton = false) :
    step s = .next (s.afterButton.stillPressed n) := by
  rw [step_waitRelease hq, State.pollStep, if_neg (Bool.eq_false_iff.mp hb)]

theorem step_poll_waits {n : Nat} {s : State} (hq : s.seq = .waitRelease n) (hb : s.drawnButton = false)
    (h : ∀ k, s.cfg.stuckTimeout = some k → n + 1 < k) :
    step s = .next { s.afterButton with seq := .waitRelease (n + 1) } := by
  rw [step_poll_pressed hq hb, stillPressed_waits (s := s.afterButton) h]

theorem step_poll_timeout {n k : Nat} {s : State} (hq : s.seq = .waitRelease n) (hb : s.drawnButton = false)
    (hk : s.cfg.stuckTimeout = some k) (h : k ≤ n + 1) : step s = .next (s.afterButton.raise .stuckInput) := by
  rw [step_poll_pressed hq hb, stillPressed_timeout (s := s.afterButton) hk h]

/-- Settles O36: the end of the delay, and the poll that reads released, goes on waiting, or reaches STUCK_TIMEOUT. -/
theorem releaseWaitSteps : Obligations.ReleaseWaitSteps := by
  intro s n
  refine ⟨step_debounce, step_poll_released, fun hq hb hnone => ?_, fun k hq hb hk hlt => ?_,
    fun k => step_poll_timeout⟩
  · exact step_poll_waits hq hb fun k hk => nomatch hnone.symm.trans hk
  · refine step_poll_waits hq hb fun j hj => ?_
    obtain rfl : k = j := Option.some.inj (hk.symm.trans hj)
    exact hlt

/-! ### Polls that see the button pressed -/

/-- A run that begins with a known step. -/
theorem runSteps_of_step {n : Nat} {s t : State} (h : step s = .next t) : runSteps (n + 1) s = runSteps n t := by
  rw [runSteps, h]

/-- Pressed polls short of STUCK_TIMEOUT change the count of polls and the levels still to be read, no more (R265). -/
theorem polls_wait {s : State} {m n : Nat} {rest : List Bool} (hq : s.seq = .waitRelease m)
    (hbuttons : s.buttons = List.replicate n false ++ rest)
    (h : ∀ k, s.cfg.stuckTimeout = some k → m + n < k) :
    runSteps n s = .next { s with seq := .waitRelease (m + n), buttons := rest } := by
  induction n generalizing s m with
  | zero =>
    obtain rfl : s.buttons = rest := hbuttons
    rw [Nat.add_zero, ← hq]
    rfl
  | succ n ih =>
    have hcons : s.buttons = false :: (List.replicate n false ++ rest) := hbuttons
    have hpoll := step_poll_waits hq (drawnButton_cons hcons) fun k hk => by have := h k hk; omega
    rw [afterButton_cons hcons] at hpoll
    rw [runSteps_of_step hpoll, ih rfl rfl fun k hk => by have := h k hk; omega, Nat.add_assoc, Nat.add_comm 1 n]

/-- Settles O37: with no STUCK_TIMEOUT every pressed poll goes on waiting. -/
theorem stuckButtonHangs : Obligations.StuckButtonHangs :=
  fun _ _ _ _ hnone hq hbuttons => polls_wait hq hbuttons fun _ hk => nomatch hnone.symm.trans hk

/-- Settles O38: all pressed polls but the last go on waiting, and the last reaches the bound. -/
theorem stuckTimeoutEndsWait : Obligations.StuckTimeoutEndsWait := by
  intro s k rest hk hpos hq hbuttons
  obtain ⟨n, rfl⟩ : ∃ n, k = n + 1 := ⟨k - 1, by omega⟩
  rw [List.replicate_succ', List.append_assoc] at hbuttons
  have hwait := polls_wait hq hbuttons fun j hj => by
    obtain rfl : n + 1 = j := Option.some.inj (hk.symm.trans hj)
    omega
  have hlast := step_poll_timeout (s := { s with seq := .waitRelease (0 + n), buttons := false :: rest }) rfl
    (drawnButton_cons rfl) hk (by omega)
  rw [afterButton_cons (b := false) rfl] at hlast
  rw [runSteps_add hwait]
  exact runSteps_of_step hlast

/-! ### BUTTON_PRESS released at its first poll -/

/-- With SPEED already advanced, BUTTON_PRESS writes the registers of its unit, which end at register 9, passes its
delay and ends at the first poll, which reads released (R261 to R264). -/
theorem busy_buttonPress {s : State} {start : Nat} {ps : List Half}
    (hes : opEvents s.cfg s.speed .buttonPress = writeRunEvents start ps) (h10 : start + ps.length = 10)
    (hne : ps ≠ []) (hbutton : s.drawnButton = true) :
    ∃ u, runSteps (220 * ps.length + 2) { s with seq := .busy .buttonPress 0 } = .next u ∧
      EndsAfter (writeRunEvents start ps) s.afterButton u ∧ RunWritten start ps s.receiver.nib u.receiver.nib := by
  have hlen := writeRunEvents_length start ps
  have hpos := List.length_pos_iff.mpr hne
  have hindicator := accept_runs hes (List.length_pos_iff.mp (by omega))
  rw [hlen, emitAll_writeRun (by omega) hne] at hindicator
  rw [State.accept] at hindicator
  refine ⟨State.complete none
    { s.afterButton with
      lines := Lines.idle
      receiver := { frame := none, nib := writeRunNib start ps s.receiver.nib }
      trace := s.trace ++ writeRunEvents start ps }, ?_, rfl, runWritten_writeRunNib start hne _⟩
  rw [runSteps_add hindicator, runSteps_of_step (step_debounce rfl)]
  exact runSteps_of_step (step_poll_released rfl hbutton)

/-- Settles O35: the unit is "K", "M" or "HZ" as the range left is HZ, KHZ or MHZ, and its characters are letters. -/
theorem buttonPressAdvancesRange : Obligations.ButtonPressAdvancesRange := by
  intro s hbutton
  refine ⟨encodeThenDecode .buttonPress rfl, rfl, ?_⟩
  cases hspeed : s.speed with
  | hz =>
    obtain ⟨u, hrun, hends, hreg, hspill, hout⟩ := busy_buttonPress (s := { s with speed := .khz }) (start := 9)
      (ps := [s.cfg.glyph[26]]) rfl rfl (List.cons_ne_nil _ _) hbutton
    simp only [writeRunEvents, List.append_nil, writeRegisterEvents_eq] at hends
    exact ⟨_, u, hrun, hends, fun _ => ⟨rfl, hreg 0 (Nat.zero_lt_succ _)⟩, nofun, nofun, hspill, hout⟩
  | khz =>
    obtain ⟨u, hrun, hends, hreg, hspill, hout⟩ := busy_buttonPress (s := { s with speed := .mhz }) (start := 9)
      (ps := [s.cfg.glyph[28]]) rfl rfl (List.cons_ne_nil _ _) hbutton
    simp only [writeRunEvents, List.append_nil, writeRegisterEvents_eq] at hends
    exact ⟨_, u, hrun, hends, nofun, fun _ => ⟨rfl, hreg 0 (Nat.zero_lt_succ _)⟩, nofun, hspill, hout⟩
  | mhz =>
    obtain ⟨u, hrun, hends, hreg, hspill, hout⟩ := busy_buttonPress (s := { s with speed := .hz }) (start := 8)
      (ps := [s.cfg.glyph[23], s.cfg.glyph[41]]) rfl rfl (List.cons_ne_nil _ _) hbutton
    simp only [writeRunEvents, List.append_nil, writeRegisterEvents_eq] at hends
    exact ⟨_, u, hrun, hends, nofun, nofun, fun _ => ⟨rfl, hreg 0 (Nat.zero_lt_succ _), hreg 1 Nat.one_lt_two⟩,
      hspill, hout⟩

/-! ### Presses one after the other -/

/-- The word of BUTTON_PRESS (R104). -/
def pressWord : HostWord :=
  { opcode := 0x31, operands := [] }

/-- The block waits for the host with the presses `port` presented and the levels `levels` ready (logs 2, 5). -/
def State.awaits (port : List HostWord) (levels : List Bool) (s : State) : Prop :=
  s.seq = .idle ∧ s.issue = none ∧ s.port = port ∧ s.buttons = levels

/-- One presented press with released at its first poll: it is taken and completes, and SPEED has advanced (R262). -/
theorem press_completes {s : State} {port : List HostWord} {levels : List Bool}
    (h : s.awaits (pressWord :: port) (true :: levels)) :
    ∃ n u, runSteps n s = .next u ∧ u.awaits port levels ∧ u.speed = s.speed.next := by
  obtain ⟨hq, hissue, hport, hbuttons⟩ := h
  have hbutton : State.drawnButton { s with port := port } = true := drawnButton_cons hbuttons
  obtain ⟨hdecode, hexec, es, u, hrun, hends, -⟩ := buttonPressAdvancesRange { s with port := port } hbutton
  have haccept := step_idle_ok hq (hdecode ▸ fetch_port hissue hport)
  refine ⟨_, u, (runSteps_of_step (haccept.trans hexec)).trans hrun, ?_⟩
  rw [hends]
  exact ⟨⟨rfl, hissue, rfl, congrArg List.tail hbuttons⟩, rfl⟩

/-- `m` presented presses complete, and SPEED has advanced `m` times (R260, R266). -/
theorem presses_complete {m : Nat} {s : State} (h : s.awaits (List.replicate m pressWord) (List.replicate m true)) :
    ∃ n u, runSteps n s = .next u ∧ u.awaits [] [] ∧ u.speed = Speed.next^[m] s.speed := by
  induction m generalizing s with
  | zero => exact ⟨0, s, rfl, h, rfl⟩
  | succ m ih =>
    obtain ⟨n, t, hfirst, ht, htspeed⟩ := press_completes h
    obtain ⟨n', u, hrest, hu, huspeed⟩ := ih ht
    exact ⟨n + n', u, (runSteps_add hfirst).trans hrest, hu, by rw [huspeed, htspeed, Function.iterate_succ_apply]⟩

/-- Three presses bring SPEED back (R266). -/
theorem speed_next_periodic (speed : Speed) : Function.IsPeriodicPt Speed.next 3 speed := by
  cases speed <;> rfl

/-- Settles O39: SPEED advances once for each press from HZ, and three advances bring it back. -/
theorem pressesCycleTheRange : Obligations.PressesCycleTheRange := by
  intro cfg m
  obtain ⟨n, u, hrun, ⟨hq, -, hport, -⟩, hspeed⟩ := presses_complete (m := m)
    (s := { State.powerUp cfg with port := List.replicate m pressWord, buttons := List.replicate m true })
    ⟨rfl, rfl, rfl, rfl⟩
  have hmod : u.speed = Speed.next^[m % 3] .hz := hspeed.trans ((speed_next_periodic .hz).iterate_mod_apply m).symm
  refine ⟨n, u, hrun, hq, hport, fun h => ?_, fun h => ?_, fun h => ?_⟩ <;> rw [hmod, h] <;> rfl

end Sys2Proof.Machine
end

section
/-! SUPPORT. What goes wrong and what is kept from it (spec/60_exceptions.md R281 to R290): the one refusal of a step,
the port held while an operation is in progress, and a rejected operation that leaves nothing behind. -/

namespace Sys2Proof.Machine

/-! ### Which words are refused -/

/-- Where a taken word comes from: the issue latch, or with the latch empty the port (R290; log 11). -/
theorem fetch_source {s t : State} {r : Except DecodeError Instr} (h : s.fetch = some (r, t)) :
    (∃ w, s.issue = some w ∧ decode (.internal w) = r) ∨
      ∃ w rest, s.issue = none ∧ s.port = w :: rest ∧ decode (.host w) = r := by
  cases hissue : s.issue with
  | some w =>
    obtain ⟨rfl, -⟩ : decode (.internal w) = r ∧ _ := by simpa [fetch_issue hissue] using h
    exact .inl ⟨w, rfl, rfl⟩
  | none =>
    cases hport : s.port with
    | nil => simp [fetch_nothing hissue hport] at h
    | cons w rest =>
      obtain ⟨rfl, -⟩ : decode (.host w) = r ∧ _ := by simpa [fetch_port hissue hport] using h
      exact .inr ⟨w, rest, rfl, rfl, rfl⟩

/-- Settles O7: of the things a step can be only the fetch of a word that does not decode is no next state. -/
theorem onlyBadWordsStop : Obligations.OnlyBadWordsStop := by
  intro s
  obtain ⟨i, t, -, -, hstep⟩ | ⟨e, t, hq, hfetch, hstep⟩ | ⟨-, -, hstep⟩ | ⟨op, k, -, hstep⟩ | ⟨-, hstep⟩ |
    ⟨n, -, hstep⟩ := step_cases s
  · obtain ⟨u, hexec, -⟩ := exec_cases i t
    exact .inl ⟨u, hstep.trans hexec⟩
  · exact .inr ⟨e, hstep, hq, fetch_source hfetch⟩
  all_goals exact .inl ⟨_, hstep⟩

/-! ### The port while an operation is in progress: no part of such a step reads it or writes it (R290) -/

/-- `s` with the operations `port` presented by the host (R38; log 2). -/
def State.withPort (port : List HostWord) (s : State) : State :=
  { s with port := port }

theorem emit_withPort (e : Event) (port : List HostWord) (s : State) :
    (s.withPort port).emit e = (s.emit e).withPort port := by
  cases e <;> rfl

theorem finish_withPort (op : Instr) (port : List HostWord) (s : State) :
    (s.withPort port).finish op = (s.finish op).withPort port := by
  cases op <;> rfl

theorem busyStep_withPort (op : Instr) (k : Nat) (port : List HostWord) (s : State) :
    (s.withPort port).busyStep op k = (s.busyStep op k).withPort port := by
  have hevents : opEvents (s.withPort port).cfg (s.withPort port).speed op = opEvents s.cfg s.speed op := rfl
  simp only [State.busyStep, hevents]
  split
  · rw [emit_withPort, finish_withPort]
    split <;> rfl
  · exact finish_withPort op port s

theorem stillPressed_withPort (n : Nat) (port : List HostWord) (s : State) :
    (s.withPort port).stillPressed n = (s.stillPressed n).withPort port := by
  have hcfg : (s.withPort port).cfg = s.cfg := rfl
  simp only [State.stillPressed, hcfg]
  split
  · split <;> rfl
  · rfl

theorem pollStep_withPort (n : Nat) (port : List HostWord) (s : State) :
    (s.withPort port).pollStep n = (s.pollStep n).withPort port := by
  have hlevel : (s.withPort port).drawnButton = s.drawnButton := rfl
  simp only [State.pollStep, hlevel]
  split
  · rfl
  · exact stillPressed_withPort n port s.afterButton

/-- With an operation in progress a step goes on, and what is on the port makes no difference to the rest (R290). -/
theorem step_withPort {s : State} (h : s.seq ≠ .idle) :
    ∃ t, ∀ port, step (s.withPort port) = .next (State.withPort port t) := by
  cases hq : s.seq with
  | idle => exact absurd hq h
  | busy op k =>
    refine ⟨s.busyStep op k, fun port => ?_⟩
    rw [step_busy (s := s.withPort port) hq, busyStep_withPort]
  | debounce => exact ⟨s.debounceStep, fun port => step_debounce (s := s.withPort port) hq⟩
  | waitRelease n =>
    refine ⟨s.pollStep n, fun port => ?_⟩
    rw [step_waitRelease (s := s.withPort port) hq, pollStep_withPort]

/-- Settles O8: put on the port what already stands there, and the step of `s` itself keeps it. -/
theorem portHeldWhileBusy : Obligations.PortHeldWhileBusy := by
  intro s port hq
  obtain ⟨t, ht⟩ := step_withPort hq
  exact ⟨t.withPort s.port, ht s.port, rfl, ht port⟩

/-! ### A rejected operation -/

/-- Settles O11: of the ways an operation can be accepted or rejected only the two rejections end it with an error. -/
theorem rejectionIsPrecise : Obligations.RejectionIsPrecise := by
  intro i s
  obtain ⟨t, hexec, hcases⟩ := exec_cases i s
  obtain ⟨hlines, hreceiver, htrace⟩ := exec_sameWire hexec
  refine ⟨t, hexec, hlines, hreceiver, htrace, ?_⟩
  obtain ⟨rfl, -⟩ | ⟨-, rfl⟩ | ⟨p, -, -, rfl⟩ | ⟨p, e, hi, -, -, rfl⟩ | ⟨v, rfl, -⟩ | ⟨e, -, rfl, -⟩ := hcases
  · exact ⟨rfl, rfl, nofun⟩
  · exact ⟨rfl, rfl, nofun⟩
  · exact ⟨rfl, rfl, nofun⟩
  · exact ⟨rfl, rfl, fun _ _ => ⟨rfl, rfl, fun hmove => absurd hi (hmove p)⟩⟩
  · exact ⟨rfl, rfl, fun _ hstatus => absurd rfl hstatus⟩
  · exact ⟨rfl, rfl, fun _ _ => ⟨rfl, rfl, fun _ => ⟨rfl, rfl⟩⟩⟩

end Sys2Proof.Machine
end

section
/-! SUPPORT. Every program of host operations completes (spec/60_exceptions.md R281, R290, spec/44_speed_range.md R264):
an operation once accepted runs to its end, and the host's next one follows. -/

namespace Sys2Proof.Machine

/-! ### What the host and the environment have ready is left alone -/

@[simp] theorem finish_port (op : Instr) (s : State) : (s.finish op).port = s.port := by rw [(finish_frame op s).1]
@[simp] theorem finish_issue (op : Instr) (s : State) : (s.finish op).issue = s.issue := by rw [(finish_frame op s).1]
@[simp] theorem finish_buttons (op : Instr) (s : State) : (s.finish op).buttons = s.buttons := by
  rw [(finish_frame op s).1]

/-- The acceptance of an operation takes no other word and draws no button level (R35, R290). -/
theorem exec_ports {i : Instr} {s t : State} (h : exec i s = .next t) :
    t.port = s.port ∧ t.issue = s.issue ∧ t.buttons = s.buttons := by
  obtain ⟨u, hu, hcases⟩ := exec_cases i s
  obtain rfl : u = t := by simpa [hu] using h
  obtain ⟨rfl, -⟩ | ⟨-, rfl⟩ | ⟨p, -, -, rfl⟩ | ⟨p, e, -, -, -, rfl⟩ | ⟨v, rfl, -⟩ | ⟨e, -, rfl, -⟩ := hcases <;>
    exact ⟨rfl, rfl, rfl⟩

/-! ### One operation -/

/-- An operation is over in its acceptance step, or it is in BUSY before the first of its events (R35). -/
theorem exec_idle_or_events {i : Instr} {s t : State} (h : exec i s = .next t) :
    t.seq = .idle ∨ ∃ op, t.seq = .busy op 0 ∧ opEvents t.cfg t.speed op ≠ [] := by
  refine (exec_notBusy_or_events h).imp_left fun hb => ?_
  obtain ⟨u, hu, hcases⟩ := exec_cases i s
  obtain rfl : u = t := by simpa [hu] using h
  obtain ⟨rfl, -⟩ | ⟨-, rfl⟩ | ⟨p, -, -, rfl⟩ | ⟨p, e, -, -, -, rfl⟩ | ⟨v, rfl, -⟩ | ⟨e, -, rfl, -⟩ := hcases
  · exact absurd rfl (hb _ _)
  · exact absurd rfl (hb _ _)
  · exact absurd rfl (hb _ _)
  · rfl
  · rfl
  · rfl

/-- An event sequence runs to its end, and with released at the first poll so does its operation; a level is used up
only by BUTTON_PRESS (R35, R262, R264). -/
theorem busy_completes {op : Instr} {s : State} {levels : List Bool} (hq : s.seq = .busy op 0)
    (hne : opEvents s.cfg s.speed op ≠ []) (hissue : s.issue = none) (hbuttons : s.buttons = true :: levels) :
    ∃ n u, runSteps n s = .next u ∧ (u.awaits s.port (true :: levels) ∨ u.awaits s.port levels) := by
  set es := opEvents s.cfg s.speed op with hes
  set t := (s.emitAll es).finish op with ht
  have hrun : runSteps es.length s = .next t :=
    busy_drain (k := 0) hes.symm (Nat.zero_add _) (List.length_pos_iff.mpr hne) hq
  have hport : t.port = s.port := by simp [ht]
  have htissue : t.issue = none := by simp [ht, hissue]
  have htbuttons : t.buttons = true :: levels := by simp [ht, hbuttons]
  obtain hidle | hdelay := (finish_frame op (s.emitAll es)).2.1
  · exact ⟨_, t, hrun, .inl ⟨hidle, htissue, hport, htbuttons⟩⟩
  · refine ⟨es.length + 2, t.debounceStep.afterButton.complete none, ?_, .inr ⟨rfl, htissue, hport, ?_⟩⟩
    · rw [runSteps_add hrun, runSteps_of_step (step_debounce hdelay)]
      exact runSteps_of_step (step_poll_released rfl (drawnButton_cons htbuttons))
    · exact congrArg List.tail htbuttons

/-- The operation the host presents completes, if the button reads released when it is polled, and the machine waits for
the next one. -/
theorem operation_completes {s : State} {w : HostWord} {program : List HostWord} {levels : List Bool} {i : Instr}
    (h : s.awaits (w :: program) (true :: levels)) (hdec : decode (.host w) = .ok i) :
    ∃ n u, runSteps n s = .next u ∧ (u.awaits program (true :: levels) ∨ u.awaits program levels) := by
  obtain ⟨hq, hissue, hport, hbuttons⟩ := h
  obtain ⟨t, hexec, -⟩ := exec_cases i { s with port := program }
  obtain ⟨htport, htissue, htbuttons⟩ := exec_ports hexec
  have haccept : step s = .next t := (step_idle_ok hq (hdec ▸ fetch_port hissue hport)).trans hexec
  obtain hidle | ⟨op, hbusy, hne⟩ := exec_idle_or_events hexec
  · exact ⟨1, t, runSteps_of_step haccept,
      .inl ⟨hidle, htissue.trans hissue, htport, htbuttons.trans hbuttons⟩⟩
  · obtain ⟨n, u, hrun, hu⟩ := busy_completes hbusy hne (htissue.trans hissue) (htbuttons.trans hbuttons)
    rw [htport] at hu
    exact ⟨n + 1, u, (runSteps_of_step haccept).trans hrun, hu⟩

/-! ### A program -/

/-- A program completes operation by operation; a level released stands ready for each of them. -/
theorem program_completes {program : List HostWord} {levels : List Bool} {s : State} (h : s.awaits program levels)
    (hdec : ∀ w ∈ program, ∃ i, decode (.host w) = .ok i)
    (hlevels : List.replicate program.length true <+: levels) :
    ∃ n u rest, runSteps n s = .next u ∧ u.awaits [] rest := by
  induction program generalizing s levels with
  | nil => exact ⟨0, s, levels, rfl, h⟩
  | cons w program ih =>
    obtain ⟨⟨i, hi⟩, hprogram⟩ := List.forall_mem_cons.mp hdec
    have hfewer : List.replicate program.length true <+: levels := by
      rw [List.length_cons, List.replicate_succ'] at hlevels
      exact (List.prefix_append _ _).trans hlevels
    obtain ⟨rest, rfl⟩ := hlevels
    rw [List.length_cons, List.replicate_succ, List.cons_append] at h
    obtain ⟨n, t, hfirst, ht⟩ := operation_completes h hi
    have hlater : ∃ m u rest, runSteps m t = .next u ∧ u.awaits [] rest := by
      obtain hunread | hread := ht
      · exact ih hunread hprogram hfewer
      · exact ih hread hprogram (List.prefix_append _ _)
    obtain ⟨m, u, rest', hrun, hu⟩ := hlater
    exact ⟨n + m, u, rest', (runSteps_add hfirst).trans hrun, hu⟩

/-- Settles O48, by induction on the program. -/
theorem everyProgramCompletes : Obligations.EveryProgramCompletes := by
  intro s program rest hq hissue hdec
  obtain ⟨n, u, -, hrun, hidle, huissue, hport, -⟩ := program_completes
    (s := { s with port := program, buttons := List.replicate program.length true ++ rest })
    ⟨hq, hissue, rfl, rfl⟩ hdec (List.prefix_append _ _)
  exact ⟨n, u, hrun, hidle, hport, huissue⟩

end Sys2Proof.Machine
end

section
/-! SUPPORT. Reset at any time (spec/70_reset_and_hazards.md R310, R311): the new run meets the invariant and waits for the
host's first operation. -/

namespace Sys2Proof.Machine

/-- The block is quiet after a reset, whatever frame was open (R310). -/
theorem restart_quiet (nib : Nib) (s : State) : (s.restart nib).quiet := ⟨restart_lines nib s, by rw [restart_receiver]⟩

/-- The invariant holds after a reset from any state, also from one that does not meet it. -/
theorem restart_inv {nib : Nib} (hmem : Memory.wf nib = true) (s : State) : (s.restart nib).Inv := by
  refine ⟨by rwa [restart_receiver], ?_, ?_⟩
  · rw [restart_value]
    exact Int.natCast_nonneg s.cfg.valueInit
  · exact (seqAgrees_iff_quiet (notBusy_of_idle (restart_seq nib s))).mpr (restart_quiet nib s)

/-- After a reset nothing is presented, so the step waits (R311, log 17). -/
theorem step_restart (nib : Nib) (s : State) : step (s.restart nib) = .next (s.restart nib) :=
  step_idle_nothing (restart_seq nib s) (fetch_nothing (restart_issue nib s) (restart_port nib s))

/-- Settles O42: the fields are those `State.restart` takes from `State.powerUp`; the block is quiet and its port empty. -/
theorem resetAbandonsOperation : Obligations.ResetAbandonsOperation :=
  fun s nib hmem => ⟨rfl, restart_seq nib s, restart_lines nib s, restart_trace nib s, restart_result nib s,
    restart_speed nib s, restart_lastPos nib s, restart_value nib s, restart_inv hmem s, step_restart nib s⟩

end Sys2Proof.Machine
end
